-- ==== Sys2Proof/Word.lean ====
section
/-! DEFINITION. The words of CLCORE (00_scope.md rules R9, R10, R12). -/

namespace Sys2Proof

/-- A byte `b[7:0]` (R12). -/
abbrev Byte := BitVec 8

/-- A 32-bit framing word: the header, the status word, the result-length word (30_encoding.md R60, R66). -/
abbrev Word := BitVec 32

/-- A bit sequence in stream order: the head of the list is element 0, the first bit in stream order (R9). -/
abbrev Bits := List Bool

end Sys2Proof
end

