-- ==== Sys2Proof/Config.lean ====
section
/-! DEFINITION. The structural constants of CLCORE (00_scope.md rule R6) and what the spec leaves open: the construction
arguments F, R and P (R7) and the answers of the random source (10_state.md rule R27). An opaque constant has no body: no proof can
see a value of it. -/

namespace Sys2Proof.Config

/-- `FixedPayloadSize` (R6), in bytes. -/
def fixedPayloadSize : Nat := 140

/-- `InfoBitsPerBlock` (R6). -/
def infoBitsPerBlock : Nat := 4

/-- `CodedBitsPerBlock` (R6). -/
def codedBitsPerBlock : Nat := 7

/-- `PayloadBitLength` = `FixedPayloadSize*8` = 1120 (R6). -/
def payloadBitLength : Nat := 1120

/-- `NumCodingBlocks` = `PayloadBitLength / InfoBitsPerBlock` = 280 (R6). -/
def numCodingBlocks : Nat := 280

/-- `EncodedBitLength` = `NumCodingBlocks * CodedBitsPerBlock` = 1960 (R6). -/
def encodedBitLength : Nat := 1960

/-- A probability of the reset instance: any real number in [0,1] (10_state.md R23, R25). Real numbers do not compute, so it comes with
its threshold at every number of bits, held to R23's definition (DESIGN CHOICE, log 3; safe). -/
structure Probability where
  /-- The number. -/
  val : ℝ := 0
  /-- It lies in [0,1] (R25). -/
  inUnit : 0 ≤ val ∧ val ≤ 1 := by norm_num
  /-- `floor(val * 2^F)` (R23), as a function of F. -/
  scaled : Nat → Nat := fun _ => 0
  /-- It is that floor. -/
  scaled_eq : ∀ F, (scaled F : Int) = ⌊val * 2 ^ F⌋ := by simp
  deriving Inhabited

/-- F - 1 for the instance that `State.reset` is; OPEN (00_scope.md R7, 92_eei_decisions.md D10; log 2). -/
opaque drawFracBitsLessOne : Nat

/-- `DRAW_FRAC_BITS`: the parameter F of the instance that `State.reset` is, an integer F >= 1 (R7). -/
def drawFracBits : Nat := drawFracBitsLessOne + 1

/-- R, the construction argument `lossProbability` of the instance that `State.reset` is; OPEN (R7; log 2). -/
opaque lossProbability : Probability

/-- P, the construction argument `errorProbability` of the instance that `State.reset` is; OPEN (R7; log 2). -/
opaque errorProbability : Probability

/-- The non-deterministic seed of the instance that `State.reset` is (70_reset_and_hazards.md R230; log 1). -/
opaque resetSeed : Nat

/-- FREE VALUE (10_state.md R27, 93_implementation_defined.md I3; log 1): `drawAnswer seed n` is what the random source seeded
with `seed` answers to its draw number n (counted from 0), before it is brought into the range the draw asks for. -/
opaque drawAnswer : Nat → Nat → Nat

end Sys2Proof.Config
end

