-- ==== Sys2Proof/Machine/Bits.lean ====
section
/-! DEFINITION. BitStreamCodec's two conversions (40_bitstream.md rules R100, R101), the packing of bit sequences into bytes
(30_encoding.md rule R65), the big-endian framing of multi-byte fields (20_memory.md rule R45), and slices of bit sequences
(00_scope.md rule R9). -/

namespace Sys2Proof.Machine

/-- The eight bits of a byte, most significant first (R42, R100). -/
def byteBits (b : Byte) : Bits :=
  [b.getLsbD 7, b.getLsbD 6, b.getLsbD 5, b.getLsbD 4, b.getLsbD 3, b.getLsbD 2, b.getLsbD 1, b.getLsbD 0]

/-- `bytesToBits` (R100): each byte as 8 bits, most significant bit first. -/
def bytesToBits (B : List Byte) : Bits := B.flatMap byteBits

/-- The byte whose bits are these eight, the first the most significant: the sum of `s[8m+j] * 2^(7-j)` (R101). -/
def byteOfBits (b7 b6 b5 b4 b3 b2 b1 b0 : Bool) : Byte :=
  BitVec.ofNat 8 (b7.toNat * 128 + b6.toNat * 64 + b5.toNat * 32 + b4.toNat * 16
    + b3.toNat * 8 + b2.toNat * 4 + b1.toNat * 2 + b0.toNat)

/-- The bytes of `bitsToBytes` (R101): groups of 8 bits in order, what is left over (fewer than 8 bits) is dropped. -/
def bitsToBytes : Bits → List Byte
  | b7 :: b6 :: b5 :: b4 :: b3 :: b2 :: b1 :: b0 :: rest => byteOfBits b7 b6 b5 b4 b3 b2 b1 b0 :: bitsToBytes rest
  | _ => []

/-- The second part of `bitsToBytes` (R101): bits were dropped. -/
def truncated (s : Bits) : Bool := s.length % 8 != 0

/-- `pack(s)` (00_scope.md R13, 30_encoding.md R65): the bytes that carry a bit sequence, zero pad bits at the end. -/
def pack (s : Bits) : List Byte :=
  bitsToBytes (s ++ List.replicate ((8 - s.length % 8) % 8) false)

/-- The bit operand of `len` bits that the bytes D carry (R65): `bytesToBits(D)[0..LEN)`. Pad bits are ignored. -/
def bitOperand (len : Nat) (D : List Byte) : Bits := (bytesToBits D).take len

/-- `s[a .. a+n)` (R9). -/
def slice (s : Bits) (a n : Nat) : Bits := (s.drop a).take n

/-- A value as n bytes, most significant byte first (20_memory.md R45). -/
def beBytes : Nat → Nat → List Byte
  | 0, _ => []
  | n + 1, v => BitVec.ofNat 8 (v / 256 ^ n) :: beBytes n v

/-- The unsigned value of bytes, most significant byte first (20_memory.md R45). -/
def beValue (bs : List Byte) : Nat := bs.foldl (fun acc b => acc * 256 + b.toNat) 0

end Sys2Proof.Machine
end

