-- ==== Sys2Proof/Machine/State.lean ====
section
/-! DEFINITION. The state of one CLCORE instance (10_state.md rules R21 to R27, 70_reset_and_hazards.md rules R231, R241), its state
after reset, and the ways a step can stop. -/

namespace Sys2Proof.Machine

/-- The private random source (R26, R27). Its real algorithm and state are not given, so it is an oracle: the answer to its next draw
is the head of `answers` where one was fixed in advance, else the free value `Config.drawAnswer seed drawn` (log 1). -/
structure RandomSource where
  /-- Which source this is: seeded at construction (R230). -/
  seed : Nat
  /-- How many draws have been taken since construction (R152, R241). -/
  drawn : Nat
  /-- The draw stream fixed in advance, oldest first (95_test_vectors.md section 3); empty at reset. -/
  answers : List Nat
  deriving DecidableEq, Repr

/-- One CLCORE instance, with its command port and its response port. -/
structure State where
  /-- The parameter F = `DRAW_FRAC_BITS` the instance was constructed with (00_scope.md R7; log 2). -/
  fracBits : Nat
  /-- `CFG_TR`, the loss threshold `T_R`, F+1 bits (R24). -/
  cfgTR : Nat
  /-- `CFG_TP`, the bit-error threshold `T_P`, F+1 bits (R24). -/
  cfgTP : Nat
  /-- The random source (R26). -/
  source : RandomSource
  /-- The requests that have arrived and are not yet performed, in arrival order; each is the bytes of one request (30_encoding.md
  R60, 20_memory.md R50; log 4). -/
  requests : List (List Byte)
  /-- The operand data bytes D of the command in progress; empty between commands (20_memory.md R40, R231). -/
  operand : List Byte
  /-- The responses returned so far, oldest first; each is the bytes of one response (30_encoding.md R66, R241). -/
  responses : List (List Byte)
  deriving DecidableEq, Repr

/-- CLCORE has no fault: "In the model, no condition of CLCORE is a fault" (60_exceptions.md R206). -/
inductive Fault where
  deriving DecidableEq, Repr

/-- Why the model has no meaning for a request. -/
inductive Refusal where
  /-- Raised by exec for an instruction without a meaning; no instruction is without one. Safe. -/
  | notModelled (mnemonic : String)
  /-- Raised by the step for a request with fewer than the four header bytes: not a request by 30_encoding.md R60 (log 5). Safe. -/
  | shortHeader
  /-- Raised by every command, and for an illegal header, when the request's data length is not nD: "the model refuses it"
  (70_reset_and_hazards.md R236, 92_eei_decisions.md D28; log 5). Safe. -/
  | wrongDataLength
  /-- Raised by the construction of an instance with F = 0, or with R or P outside [0,1]: "The model refuses such a construction"
  (70_reset_and_hazards.md R232; log 5). Safe. -/
  | badConstruction
  deriving DecidableEq, Repr

/-- The state right after construction with F, the thresholds of R and P, and a seed (70_reset_and_hazards.md R230, R231). -/
def State.constructed (F thresholdR thresholdP seed : Nat) : State where
  fracBits := F
  cfgTR := thresholdR
  cfgTP := thresholdP
  source := { seed := seed, drawn := 0, answers := [] }
  requests := []
  operand := []
  responses := []

/-- The machine right after reset, which is construction (R230) with the arguments that Config leaves open (log 2). -/
def State.reset : State :=
  State.constructed Config.drawFracBits (Config.lossProbability.scaled Config.drawFracBits)
    (Config.errorProbability.scaled Config.drawFracBits) Config.resetSeed

end Sys2Proof.Machine
end

