-- ==== Sys2Proof/Machine/Flags.lean ====
section
/-! DEFINITION. The flags of a response, its outcome codes, its status word and its bytes (30_encoding.md rules R66 to R68;
10_state.md rule R28). No flag is state: each exists only inside one response. -/

namespace Sys2Proof.Machine

/-- The three flags of a response (10_state.md R28, 30_encoding.md R67). -/
structure Flags where
  /-- `S[16]`, the command's error flag. -/
  err : Bool
  /-- `S[17]`, a malformed block. -/
  malf : Bool
  /-- `S[18]`, DES dropped bits. -/
  trunc : Bool
  deriving DecidableEq, Repr

/-- flags = 0. -/
def Flags.clear : Flags where
  err := false
  malf := false
  trunc := false

/-- flags = ERR:e alone. -/
def Flags.error (e : Bool) : Flags := { Flags.clear with err := e }

/-- flags = TRUNC:t alone: truncation does not set ERR (40_bitstream.md R104). -/
def Flags.truncation (t : Bool) : Flags := { Flags.clear with trunc := t }

/-- flags = ERR:1, MALF:1, the condition MalformedBlockInput (60_exceptions.md R200; 41_blockcoder.md R129). -/
def Flags.malformed : Flags := { Flags.clear with err := true, malf := true }

/-- flags = ERR:e, MALF:m, as DEC reports `Dec7` (41_blockcoder.md R130). -/
def Flags.decoded (e m : Bool) : Flags := { Flags.clear with err := e, malf := m }

/-- `errorDetected` of a syndrome (41_blockcoder.md R126): any bit is 1. -/
def syndromeError (syndrome : Bits) : Bool := syndrome.any id

/-- The outcome codes that are ever produced (30_encoding.md R68). -/
inductive OutcomeCode where
  /-- 0x0: the command completed. -/
  | ok
  /-- 0x1: the frame is lost. -/
  | lost
  /-- 0x2: a NOISE operand whose length is not 1960 bits. -/
  | badlen
  /-- 0xF: the header is not a command. -/
  | illegal
  deriving DecidableEq, Repr

/-- The field `RC` of an outcome (30_encoding.md R68). -/
def OutcomeCode.code : OutcomeCode → BitVec 4
  | .ok => 0x0#4
  | .lost => 0x1#4
  | .badlen => 0x2#4
  | .illegal => 0xF#4

/-- A response before it is laid out in bytes (30_encoding.md R66, R67). -/
structure Response where
  /-- The request's `H[31:28]`, echoed. -/
  opc : BitVec 4
  /-- The outcome. -/
  rc : OutcomeCode
  /-- The flags. -/
  flags : Flags
  /-- The result length, in the unit R69 gives for the command. -/
  rlen : Nat
  /-- The result data bytes. -/
  data : List Byte
  deriving DecidableEq, Repr

/-- The status word S (30_encoding.md R67). -/
def Response.status (r : Response) : Word :=
  r.opc ++ r.rc.code ++ 0#5 ++ BitVec.ofBool r.flags.trunc ++ BitVec.ofBool r.flags.malf ++ BitVec.ofBool r.flags.err ++ 0#16

/-- The bytes of a response: S, RLEN, then the data; both words most significant byte first (30_encoding.md R66). -/
def Response.bytes (r : Response) : List Byte :=
  beBytes 4 r.status.toNat ++ beBytes 4 r.rlen ++ r.data

end Sys2Proof.Machine
end

