-- ==== Sys2Proof/Syntax.lean ====
section
/-! DEFINITION. The commands of CLCORE, one constructor per row of spec/opcode_table.json (30_encoding.md rules R61, R62, R64).
A command is its header: the opcode and LEN, an unsigned count. Its operand data bytes D follow the header in the request (R60) and
reach the command through the state (`State.operand`). -/

namespace Sys2Proof

inductive Instr where
  /-- SER, opcode 0x1: serialize LEN bytes to bits (40_bitstream.md R102). -/
  | ser (len : Nat)
  /-- DES, opcode 0x2: deserialize LEN bits to bytes (40_bitstream.md R103). -/
  | des (len : Nat)
  /-- ENC, opcode 0x3: encode one block of LEN bits, legal LEN 4 (41_blockcoder.md R128). -/
  | enc (len : Nat)
  /-- DEC, opcode 0x4: decode one block of LEN bits, legal LEN 7 (41_blockcoder.md R130). -/
  | dec (len : Nat)
  /-- SYN, opcode 0x5: the syndrome of one block of LEN bits, legal LEN 7 (41_blockcoder.md R132). -/
  | syn (len : Nat)
  /-- NOISE, opcode 0x6: the noise model on one frame of LEN bits, legal LEN 1960 (42_noise.md R156). -/
  | noise (len : Nat)
  /-- PSEG, opcode 0x7: one segment with a payload of LEN bytes, legal LEN 140, through the channel (43_channel.md R179). -/
  | pseg (len : Nat)
  deriving DecidableEq, Repr

/-- The field `LEN` of the header (R61). -/
def Instr.len : Instr → Nat
  | .ser n | .des n | .enc n | .dec n | .syn n | .noise n | .pseg n => n

end Sys2Proof
end

