-- ==== Sys2Proof/WellFormed.lean ====
section
/-! DEFINITION. Which commands a header can hold (30_encoding.md rules R61, R62, R72). -/

namespace Sys2Proof

/-- The one check: LEN fits its 24-bit field, "an unsigned count 0 to 16,777,215" (R62); no such LEN is illegal (R72). -/
abbrev Instr.WellFormed (i : Instr) : Prop := i.len < 2 ^ 24

end Sys2Proof
end

