-- ==== Sys2Proof/Decode.lean ====
section
/-! DEFINITION. The decoder of request headers, total on every header (30_encoding.md rules R61 to R64, R71 to R73), and the
encoder. -/

namespace Sys2Proof

open Sys2Proof.Machine (beBytes beValue)

/-- Why bytes are not a command. -/
inductive Reject where
  /-- Fewer than the four header bytes: not a request at all (R60). -/
  | shortHeader
  /-- The field `RSV` is not 0000 (R71). -/
  | reservedField (h : Word)
  /-- `OPC` is 0x0 or 0x8 to 0xF (R71). -/
  | illegalOpcode (h : Word)
  deriving DecidableEq, Repr

/-- The field `OPC`, `H[31:28]` (R61). -/
def headerOpc (h : Word) : BitVec 4 := h.extractLsb' 28 4

/-- The field `RSV`, `H[27:24]` (R61). -/
def headerRsv (h : Word) : BitVec 4 := h.extractLsb' 24 4

/-- The field `LEN`, `H[23:0]` zero-extended (R61, R62). -/
def headerLen (h : Word) : Nat := (h.extractLsb' 0 24).toNat

/-- The opcode map (R64). -/
def opcodeMap (opc : BitVec 4) (len : Nat) : Option Instr :=
  match opc.toNat with
  | 1 => some (.ser len)
  | 2 => some (.des len)
  | 3 => some (.enc len)
  | 4 => some (.dec len)
  | 5 => some (.syn len)
  | 6 => some (.noise len)
  | 7 => some (.pseg len)
  | _ => none

/-- The decoding procedure of R73 on a header word. -/
def decodeHeader (h : Word) : Except Reject Instr :=
  if headerRsv h = 0#4 then
    match opcodeMap (headerOpc h) (headerLen h) with
    | some i => .ok i
    | none => .error (.illegalOpcode h)
  else .error (.reservedField h)

/-- The header word of a request: its first four bytes, most significant first (R60, 20_memory.md R45). -/
def headerOf (request : List Byte) : Word := BitVec.ofNat 32 (beValue (request.take 4))

/-- Decode a request: its command and the data bytes that follow the header (R60, R73). -/
def decode (request : List Byte) : Except Reject (Instr × List Byte) :=
  if request.length < 4 then .error .shortHeader
  else match decodeHeader (headerOf request) with
    | .ok i => .ok (i, request.drop 4)
    | .error r => .error r

/-- The opcode of a command (R64). -/
def Instr.opcode : Instr → BitVec 4
  | .ser _ => 0x1#4
  | .des _ => 0x2#4
  | .enc _ => 0x3#4
  | .dec _ => 0x4#4
  | .syn _ => 0x5#4
  | .noise _ => 0x6#4
  | .pseg _ => 0x7#4

/-- The header word of a command: `OPC : 0000 : LEN` (R61). -/
def encodeHeader (i : Instr) : Word := i.opcode ++ 0#4 ++ BitVec.ofNat 24 i.len

/-- The header of a command as the host sends it, four bytes (R60). -/
def encode (i : Instr) : List Byte := beBytes 4 (encodeHeader i).toNat

/-- nD, the number of operand data bytes that follow the header of a legal command (R63). -/
def operandBytes : Instr → Nat
  | .ser len => len
  | .des len | .enc len | .dec len | .syn len | .noise len => (len + 7) / 8
  | .pseg len => 16 + len

/-- nD as a function of any header word: 0 for a header that is no command (R63, R71). -/
def headerDataBytes (h : Word) : Nat :=
  match decodeHeader h with
  | .ok i => operandBytes i
  | .error _ => 0

/-- The request whose bits are w, numbered as spec/opcode_table.json numbers them (bit 0 the least significant bit of the
header word, later bits the data bytes in order, bits from nbits on 0): the header's four bytes, then nD data bytes (none for a
header that is no command). -/
def tableRequest (nbits w : Nat) : List Byte :=
  let v := w % 2 ^ nbits
  let header := BitVec.ofNat 32 v
  beBytes 4 header.toNat ++ (List.range (headerDataBytes header)).map fun k => BitVec.ofNat 8 (v / 2 ^ (32 + 8 * k))

/-- What the decoder reads from the opcode table's word w of nbits bits (none where it refuses). -/
def decodeTableWord (nbits w : Nat) : Option Instr :=
  match decode (tableRequest nbits w) with
  | .ok (i, _) => some i
  | .error _ => none

end Sys2Proof
end

