-- ==== Sys2Proof/Machine/Operands.lean ====
section
/-! DEFINITION. The operand forms of the commands: byte operands, bit operands (`bitOperand`, Machine/Bits.lean), and PSEG's metadata
block and segment (30_encoding.md rules R62, R65, R70; 10_state.md rules R30, R31). -/

namespace Sys2Proof.Machine

/-- The opaque metadata of a segment, carried in 16 bytes (30_encoding.md R70, 10_state.md R30). -/
structure Metadata where
  /-- 64-bit two's complement, "opaque to the core". -/
  timestamp : BitVec 64
  /-- 32-bit unsigned, not checked to be positive. -/
  totalSegments : BitVec 32
  /-- 32-bit unsigned, not checked to be positive. -/
  segmentNumber : BitVec 32
  deriving DecidableEq, Repr

/-- The record PSEG takes and returns (10_state.md R30). -/
structure Segment where
  /-- The payload bytes. -/
  payload : List Byte
  /-- `timestamp`, `totalSegments` and `segmentNumber`. -/
  metadata : Metadata
  /-- Output only; false on input (10_state.md R29). -/
  isChannelError : Bool
  deriving DecidableEq, Repr

/-- The two result variants of `ProcessSegment` (10_state.md R31). -/
inductive ChannelOutcome where
  /-- `Delivered(Segment)`. -/
  | delivered (out : Segment)
  /-- `Lost`: no payload, no metadata, no flag. -/
  | lost
  deriving DecidableEq, Repr

/-- The two results of the noise step (10_state.md R31, 42_noise.md R153). -/
inductive NoiseOutcome where
  /-- `Lost`: no sequence. -/
  | lost
  /-- The frame, with at most one bit flipped. -/
  | frame (e : Bits)
  deriving DecidableEq, Repr

/-- Read the metadata block, bytes 0 to 15 of PSEG's data (30_encoding.md R70). -/
def readMetadata (D : List Byte) : Metadata where
  timestamp := BitVec.ofNat 64 (beValue (D.take 8))
  totalSegments := BitVec.ofNat 32 (beValue ((D.drop 8).take 4))
  segmentNumber := BitVec.ofNat 32 (beValue ((D.drop 12).take 4))

/-- `metadata_block(out)` (00_scope.md R13, 30_encoding.md R70). -/
def metadataBlock (m : Metadata) : List Byte :=
  beBytes 8 m.timestamp.toNat ++ beBytes 4 m.totalSegments.toNat ++ beBytes 4 m.segmentNumber.toNat

/-- The input segment of PSEG: the metadata block, then the payload (30_encoding.md R70, 43_channel.md R179). -/
def segmentOperand (D : List Byte) : Segment where
  payload := D.drop 16
  metadata := readMetadata D
  isChannelError := false

end Sys2Proof.Machine
end

