-- ==== Sys2Proof/Machine/Threshold.lean ====
section
/-! DEFINITION. The integer threshold that a probability is held as (10_state.md rule R23). -/

namespace Sys2Proof.Machine

/-- `T_X = floor(X * 2^F)` of a probability X (R23), a number of any ordered field with a floor: of the real numbers, which the rule
speaks of, and of the rational numbers, where it can be evaluated (log 3). -/
def threshold {K : Type} [Field K] [LinearOrder K] [FloorRing K] (F : Nat) (X : K) : Nat := ⌊X * 2 ^ F⌋.toNat

end Sys2Proof.Machine
end

