-- ==== Sys2Proof/Machine/Ops.lean ====
section
/-! DEFINITION. The operations every command is made of: draws from the random source, the response that ends a command, the check of
the data length, the arrival of a request, the illegal header, and construction. CLCORE takes no exception and returns from none (60_exceptions.md rules R206, R207): a condition is a field of the response. -/

namespace Sys2Proof.Machine

/-- What the random source answers to its next draw, before it is brought into the draw's range (10_state.md R27; log 1). -/
def RandomSource.next (r : RandomSource) : Nat :=
  match r.answers with
  | a :: _ => a
  | [] => Config.drawAnswer r.seed r.drawn

/-- The random source after one draw: "internal state is mutated by every draw" (10_state.md R26). -/
def RandomSource.advance (r : RandomSource) : RandomSource :=
  { r with drawn := r.drawn + 1, answers := r.answers.tail }

/-- The random source after n draws. -/
def RandomSource.skip : Nat → RandomSource → RandomSource
  | 0, r => r
  | n + 1, r => RandomSource.skip n r.advance

/-- `DrawUnit()` (42_noise.md R150): one draw, an integer U with 0 <= U < 2^F. -/
def drawUnit (s : State) : Nat × State :=
  (s.source.next % 2 ^ s.fracBits, { s with source := s.source.advance })

/-- `DrawIndex(n)` (42_noise.md R151): one draw, an integer K with 0 <= K < n. -/
def drawIndex (n : Nat) (s : State) : Nat × State :=
  (s.source.next % n, { s with source := s.source.advance })

/-- `respond(RC, flags, RLEN, data)` (00_scope.md R13, 30_encoding.md R66): the response joins those returned so far. -/
def State.respond (s : State) (r : Response) : State :=
  { s with responses := s.responses ++ [r.bytes] }

/-- Perform a command whole (20_memory.md R48): take its operand data out of the state, run its effect on them, return its one
response. A request whose data length is not nD is refused (70_reset_and_hazards.md R236, 92_eei_decisions.md D28). -/
def perform (nD : Nat) (s : State) (effect : List Byte → State → Response × State) :
    Host.Outcome State Fault Refusal :=
  if s.operand.length = nD then
    .next ((effect s.operand { s with operand := [] }).2.respond (effect s.operand { s with operand := [] }).1)
  else .refused .wrongDataLength

/-- The response to a header that is not a command (30_encoding.md R71). -/
def illegalResponse (h : Word) : Response where
  opc := headerOpc h
  rc := .illegal
  flags := Flags.clear
  rlen := 0
  data := []

/-- A header that is not a command (30_encoding.md R71): no data, no draw, no change but the response. -/
def performIllegal (h : Word) (s : State) : Host.Outcome State Fault Refusal :=
  perform 0 s fun _ t => (illegalResponse h, t)

/-- What stands at the command port. -/
inductive Fetched where
  /-- No request is waiting (60_exceptions.md R215). -/
  | idle
  /-- A command, with the state that has taken its request from the port. -/
  | command (i : Instr) (s : State)
  /-- A header that is not a command, with the state that has taken its request from the port. -/
  | illegal (h : Word) (s : State)
  /-- Not a request. -/
  | malformed (r : Refusal)
  deriving DecidableEq, Repr

/-- Take the oldest waiting request from the command port (10_state.md R22, 20_memory.md R50) and decode its header (30_encoding.md
R73); the bytes after the header are the operand data of the command in progress. -/
def fetch (s : State) : Fetched :=
  match s.requests with
  | [] => .idle
  | request :: later =>
    match decode request with
    | .ok (i, D) => .command i { s with requests := later, operand := D }
    | .error (.illegalOpcode h) => .illegal h { s with requests := later, operand := request.drop 4 }
    | .error (.reservedField h) => .illegal h { s with requests := later, operand := request.drop 4 }
    | .error .shortHeader => .malformed .shortHeader

/-- Construct an instance (70_reset_and_hazards.md R230, R232, R234): F >= 1, R and P, real or rational (log 3), in [0,1]; anything
else is refused. -/
def construct {K : Type} [Field K] [LinearOrder K] [FloorRing K] (F : Nat) (R P : K) (seed : Nat) :
    Host.Outcome State Fault Refusal :=
  if 1 ≤ F ∧ 0 ≤ R ∧ R ≤ 1 ∧ 0 ≤ P ∧ P ≤ 1 then .next (State.constructed F (threshold F R) (threshold F P) seed)
  else .refused .badConstruction

end Sys2Proof.Machine
end

