-- ==== Sys2Proof/Machine/BitStream.lean ====
section
/-! DEFINITION. BitStreamCodec: SER and DES (40_bitstream.md rules R100 to R105). The conversions themselves are `bytesToBits` and
`bitsToBytes` of Machine/Bits.lean. -/

namespace Sys2Proof.Machine

/-- SER (R102). -/
def execSer (len : Nat) (s : State) : Host.Outcome State Fault Refusal :=
  perform (operandBytes (.ser len)) s fun B t =>
    ({ opc := 0x1#4, rc := .ok, flags := Flags.clear, rlen := 8 * len, data := pack (bytesToBits B) }, t)

/-- DES (R103, R104). -/
def execDes (len : Nat) (s : State) : Host.Outcome State Fault Refusal :=
  perform (operandBytes (.des len)) s fun D t =>
    ({ opc := 0x2#4, rc := .ok, flags := Flags.truncation (truncated (bitOperand len D)), rlen := len / 8,
       data := bitsToBytes (bitOperand len D) }, t)

end Sys2Proof.Machine
end

