-- ==== Sys2Proof/Machine/BlockCoder.lean ====
section
/-! DEFINITION. LinearBlockCoder: the encoder, the decoder and the syndrome calculator, and the commands ENC, DEC, SYN
(41_blockcoder.md rules R120 to R134). The parity and syndrome equations are normative (R121). -/

namespace Sys2Proof.Machine

/-- `Enc4` (R122, R123): the codeword `[i3, i2, i1, i0, r2, r1, r0]`. An input that is not exactly 4 bits gives 7 zero bits (R129). -/
def enc4 : Bits → Bits
  | [i3, i2, i1, i0] => [i3, i2, i1, i0, i1 ^^ i2 ^^ i3, i0 ^^ i2 ^^ i3, i0 ^^ i1 ^^ i3]
  | _ => List.replicate 7 false

/-- `Syn7` (R125): `[s2, s1, s0]`. An input that is not exactly 7 bits gives 3 zero bits (R132). -/
def syn7 : Bits → Bits
  | [v6, v5, v4, v3, v2, v1, v0] => [v2 ^^ v4 ^^ v5 ^^ v6, v1 ^^ v3 ^^ v5 ^^ v6, v0 ^^ v3 ^^ v4 ^^ v6]
  | _ => List.replicate 3 false

/-- What `Dec7` returns. -/
structure Decoded where
  /-- The four information bits. -/
  info : Bits
  /-- The syndrome is nonzero, or the block was malformed. -/
  errorDetected : Bool
  /-- The block was not exactly 7 bits. -/
  malformed : Bool
  deriving DecidableEq, Repr

/-- `Dec7` (R127): the first four elements, never corrected (R134), and whether the syndrome is nonzero (R126). -/
def dec7 (v : Bits) : Decoded :=
  if v.length = 7 then
    { info := v.take 4, errorDetected := syndromeError (syn7 v), malformed := false }
  else
    { info := List.replicate 4 false, errorDetected := true, malformed := true }

/-- ENC (R128, R129). -/
def execEnc (len : Nat) (s : State) : Host.Outcome State Fault Refusal :=
  perform (operandBytes (.enc len)) s fun D t =>
    if len = 4 then
      ({ opc := 0x3#4, rc := .ok, flags := Flags.clear, rlen := 7, data := pack (enc4 (bitOperand len D)) }, t)
    else
      ({ opc := 0x3#4, rc := .ok, flags := Flags.malformed, rlen := 7, data := pack (List.replicate 7 false) }, t)

/-- DEC (R130). -/
def execDec (len : Nat) (s : State) : Host.Outcome State Fault Refusal :=
  perform (operandBytes (.dec len)) s fun D t =>
    ({ opc := 0x4#4, rc := .ok,
       flags := Flags.decoded (dec7 (bitOperand len D)).errorDetected (dec7 (bitOperand len D)).malformed,
       rlen := 4, data := pack (dec7 (bitOperand len D)).info }, t)

/-- SYN (R132). -/
def execSyn (len : Nat) (s : State) : Host.Outcome State Fault Refusal :=
  perform (operandBytes (.syn len)) s fun D t =>
    if len = 7 then
      ({ opc := 0x5#4, rc := .ok, flags := Flags.error (syndromeError (syn7 (bitOperand len D))), rlen := 3,
         data := pack (syn7 (bitOperand len D)) }, t)
    else
      ({ opc := 0x5#4, rc := .ok, flags := Flags.malformed, rlen := 3, data := pack (List.replicate 3 false) }, t)

end Sys2Proof.Machine
end

