-- ==== Sys2Proof/Machine/Noise.lean ====
section
/-! DEFINITION. NoiseSimulator: the noise function and the command NOISE (42_noise.md rules R150 to R158). -/

namespace Sys2Proof.Machine

/-- `e[K] <- e[K] xor 1`: flip exactly one bit (R153, R155). -/
def flipBit (e : Bits) (K : Nat) : Bits := e.modify K not

/-- The flip position, when the error check has passed (R153 step 2): one draw of an index in `[0, EncodedBitLength)`. -/
def flipDrawnBit (e : Bits) (s : State) : NoiseOutcome × State :=
  (.frame (flipBit e (drawIndex Config.encodedBitLength s).1), (drawIndex Config.encodedBitLength s).2)

/-- The error check, when the frame is not lost (R153 steps 2 and 3): one draw, compared with `T_P` by `<=`. -/
def errorCheck (e : Bits) (s : State) : NoiseOutcome × State :=
  if (drawUnit s).1 ≤ s.cfgTP then flipDrawnBit e (drawUnit s).2
  else (.frame e, (drawUnit s).2)

/-- `Noise` (R153): the loss check (one draw, compared with `T_R` by `<=`), then the error check. -/
def noise (e : Bits) (s : State) : NoiseOutcome × State :=
  if (drawUnit s).1 ≤ s.cfgTR then (.lost, (drawUnit s).2)
  else errorCheck e (drawUnit s).2

/-- The response of NOISE to a result of the noise function (R156). -/
def noiseResponse : NoiseOutcome → Response
  | .lost => { opc := 0x6#4, rc := .lost, flags := Flags.clear, rlen := 0, data := [] }
  | .frame r => { opc := 0x6#4, rc := .ok, flags := Flags.clear, rlen := 1960, data := pack r }

/-- NOISE (R156). -/
def execNoise (len : Nat) (s : State) : Host.Outcome State Fault Refusal :=
  perform (operandBytes (.noise len)) s fun D t =>
    if len = Config.encodedBitLength then
      (noiseResponse (noise (bitOperand len D) t).1, (noise (bitOperand len D) t).2)
    else
      ({ opc := 0x6#4, rc := .badlen, flags := Flags.clear, rlen := 0, data := [] }, t)

end Sys2Proof.Machine
end

