-- ==== Sys2Proof/Machine/Channel.lean ====
section
/-! DEFINITION. ChannelLayer: the frame pipeline `ProcessSegment` and the command PSEG (43_channel.md rules R170 to R183). -/

namespace Sys2Proof.Machine

/-- The codewords of the first n groups of 4 bits of b, concatenated in block order (R172, R173). -/
def encodeBlocks : Nat → Bits → Bits
  | 0, _ => []
  | n + 1, b => enc4 (b.take Config.infoBitsPerBlock) ++ encodeBlocks n (b.drop Config.infoBitsPerBlock)

/-- Step 3 (R172, R173): the 280 groups of 4 payload bits, each encoded, concatenated in block order. -/
def encodeFrame (b : Bits) : Bits := encodeBlocks Config.numCodingBlocks b

/-- The first n groups of 7 bits of r, each decoded on its own, in block order (R175). -/
def decodeBlocks : Nat → Bits → List Decoded
  | 0, _ => []
  | n + 1, r => dec7 (r.take Config.codedBitsPerBlock) :: decodeBlocks n (r.drop Config.codedBitsPerBlock)

/-- Step 5 (R175): the 280 groups of a received frame, decoded. -/
def decodeFrame (r : Bits) : List Decoded := decodeBlocks Config.numCodingBlocks r

/-- The decoded 4-bit groups concatenated, in order (R177). -/
def infoBits (blocks : List Decoded) : Bits := blocks.flatMap Decoded.info

/-- Step 5, aggregation (R176): the OR of the per-block flags. -/
def anyError (blocks : List Decoded) : Bool := blocks.any Decoded.errorDetected

/-- The outcome of a failed validation (R171): an empty payload, the metadata copied, the error flag. -/
def sizeMismatch (m : Metadata) : ChannelOutcome :=
  .delivered { payload := [], metadata := m, isChannelError := true }

/-- Steps 6 and 7 (R177, R180): the decoded bits as bytes, checked to be 140, and delivered with the metadata. -/
def deliver (m : Metadata) (d : Bits) (err : Bool) : ChannelOutcome :=
  if (bitsToBytes d).length = Config.fixedPayloadSize then
    .delivered { payload := bitsToBytes d, metadata := m, isChannelError := err }
  else sizeMismatch m

/-- Steps 5 to 7, on the result of the noise step (R174 to R180). -/
def receive (m : Metadata) : NoiseOutcome → ChannelOutcome
  | .lost => .lost
  | .frame r => deliver m (infoBits (decodeFrame r)) (anyError (decodeFrame r))

/-- `ProcessSegment` (R170). -/
def processSegment (seg : Segment) (s : State) : ChannelOutcome × State :=
  if seg.payload.length = Config.fixedPayloadSize then
    if (bytesToBits seg.payload).length = Config.payloadBitLength then
      (receive seg.metadata (noise (encodeFrame (bytesToBits seg.payload)) s).1,
        (noise (encodeFrame (bytesToBits seg.payload)) s).2)
    else (sizeMismatch seg.metadata, s)
  else (sizeMismatch seg.metadata, s)

/-- The response of PSEG to a result of `ProcessSegment` (R179). -/
def segmentResponse : ChannelOutcome → Response
  | .lost => { opc := 0x7#4, rc := .lost, flags := Flags.clear, rlen := 0, data := [] }
  | .delivered out =>
    { opc := 0x7#4, rc := .ok, flags := Flags.error out.isChannelError, rlen := out.payload.length,
      data := metadataBlock out.metadata ++ out.payload }

/-- PSEG (R179). -/
def execPseg (len : Nat) (s : State) : Host.Outcome State Fault Refusal :=
  perform (operandBytes (.pseg len)) s fun D t =>
    (segmentResponse (processSegment (segmentOperand D) t).1, (processSegment (segmentOperand D) t).2)

end Sys2Proof.Machine
end

