-- ==== Sys2Proof/Machine/Dispatch.lean ====
section
/-! DEFINITION. One arm per command (30_encoding.md rule R64). -/

namespace Sys2Proof.Machine

def exec (i : Instr) (s : State) : Host.Outcome State Fault Refusal :=
  match i with
  | .ser len => Sys2Proof.Machine.execSer len s
  | .des len => Sys2Proof.Machine.execDes len s
  | .enc len => Sys2Proof.Machine.execEnc len s
  | .dec len => Sys2Proof.Machine.execDec len s
  | .syn len => Sys2Proof.Machine.execSyn len s
  | .noise len => Sys2Proof.Machine.execNoise len s
  | .pseg len => Sys2Proof.Machine.execPseg len s

end Sys2Proof.Machine
end

