-- ==== Sys2Proof/Machine/Step.lean ====
section
/-! DEFINITION. One step: the oldest waiting request is performed whole (20_memory.md rules R48, R50; 70_reset_and_hazards.md rule
R240: "in the model a command is one step"). With no request waiting the instance holds its state (60_exceptions.md rule R215). -/

namespace Sys2Proof.Machine

def step (s : State) : Host.Outcome State Fault Refusal :=
  match fetch s with
  | .idle => .next s
  | .command i t => exec i t
  | .illegal h t => performIllegal h t
  | .malformed r => .refused r

/-- The state with the request of the opcode table's word w at the front of the command port, so that the next step performs it: it
stands for the host sending that request (log 4). -/
def State.withFetchWord (s : State) (nbits w : Nat) : State :=
  { s with requests := tableRequest nbits w :: s.requests }

end Sys2Proof.Machine
end

