-- ==== Sys2Proof/Machine/Assembler.lean ====
section
/-! DEFINITION. The assembler syntax (30_encoding.md rules R74, R75): a line is exactly one command, and "the assembler turns a line
into the request of rules R60 to R65 and nothing else". It stands outside the machine: no step uses it. -/

namespace Sys2Proof.Machine

/-- A bit-operand literal (R74). -/
inductive BitLiteral where
  /-- `b'...'`: the bits in stream order. -/
  | bin (s : Bits)
  /-- `h'...'/N`: the first N bits of the byte string. -/
  | hex (B : List Byte) (n : Nat)
  deriving DecidableEq, Repr

/-- LEN of a bit literal (R74). -/
def BitLiteral.len : BitLiteral → Nat
  | .bin s => s.length
  | .hex _ n => n

/-- The data bytes of a bit literal: a bit string is packed (R65); of a byte string the bytes that hold the first N bits, as they
stand (so its pad bits may be 1, as in vector V-ENC-17). None where the byte string has fewer than N bits. -/
def BitLiteral.data : BitLiteral → Option (List Byte)
  | .bin s => some (pack s)
  | .hex B n => if n ≤ 8 * B.length then some (B.take ((n + 7) / 8)) else none

/-- A line: one command (R75). -/
inductive AsmLine where
  | ser (B : List Byte)
  | des (o : BitLiteral)
  | enc (o : BitLiteral)
  | dec (o : BitLiteral)
  | syn (o : BitLiteral)
  | noise (o : BitLiteral)
  | pseg (ts : Int) (tot seg : Nat) (payload : List Byte)
  deriving DecidableEq, Repr

/-- A header and its data, when the header can hold the length (R61, R62). -/
def requestOf (i : Instr) (D : List Byte) : Option (List Byte) :=
  if i.WellFormed then some (encode i ++ D) else none

/-- PSEG's metadata operands `ts=<int64>, tot=<u32>, seg=<u32>` as the metadata block (R70, R74), when each fits its width. -/
def metadataOperand (ts : Int) (tot seg : Nat) : Option (List Byte) :=
  if -2 ^ 63 ≤ ts ∧ ts < 2 ^ 63 ∧ tot < 2 ^ 32 ∧ seg < 2 ^ 32 then
    some (beBytes 8 (BitVec.ofInt 64 ts).toNat ++ beBytes 4 tot ++ beBytes 4 seg)
  else none

/-- The request of a line (R74, R60 to R65). -/
def assemble : AsmLine → Option (List Byte)
  | .ser B => requestOf (.ser B.length) B
  | .des o => o.data.bind (requestOf (.des o.len))
  | .enc o => o.data.bind (requestOf (.enc o.len))
  | .dec o => o.data.bind (requestOf (.dec o.len))
  | .syn o => o.data.bind (requestOf (.syn o.len))
  | .noise o => o.data.bind (requestOf (.noise o.len))
  | .pseg ts tot seg payload =>
    (metadataOperand ts tot seg).bind fun m => requestOf (.pseg payload.length) (m ++ payload)

/-- Skip a fixed piece of text. -/
def expectText : List Char → List Char → Option (List Char)
  | [], cs => some cs
  | p :: ps, c :: cs => if p = c then expectText ps cs else none
  | _ :: _, [] => none

/-- A decimal number and the text after it. -/
def readNat (cs : List Char) : Option (Nat × List Char) :=
  if (cs.takeWhile Char.isDigit).isEmpty then none
  else some ((cs.takeWhile Char.isDigit).foldl (fun n c => n * 10 + (c.toNat - 48)) 0, cs.dropWhile Char.isDigit)

/-- A decimal integer and the text after it. -/
def readInt : List Char → Option (Int × List Char)
  | '-' :: cs => (readNat cs).map fun r => (-(r.1 : Int), r.2)
  | cs => (readNat cs).map fun r => ((r.1 : Int), r.2)

/-- A hexadecimal digit. -/
def hexDigit (c : Char) : Option Nat :=
  if c.isDigit then some (c.toNat - 48)
  else if 'A' ≤ c ∧ c ≤ 'F' then some (c.toNat - 55)
  else if 'a' ≤ c ∧ c ≤ 'f' then some (c.toNat - 87)
  else none

/-- The digits of `b'...'` up to the closing quote; `_` is ignored (R74). -/
def readBin : List Char → Option (Bits × List Char)
  | '\'' :: cs => some ([], cs)
  | '_' :: cs => readBin cs
  | '0' :: cs => (readBin cs).map fun r => (false :: r.1, r.2)
  | '1' :: cs => (readBin cs).map fun r => (true :: r.1, r.2)
  | _ => none

/-- `*n` after a byte: how many copies it stands for (R74); one where no star follows. -/
def readCopies : List Char → Option (Nat × List Char)
  | '*' :: cs => readNat cs
  | cs => some (1, cs)

/-- The bytes of `h'...'` up to the closing quote: two digits a byte, spaces ignored, `XX*n` for n copies (R74). The first
argument bounds the number of pieces. -/
def readHex : Nat → List Char → Option (List Byte × List Char)
  | _, '\'' :: cs => some ([], cs)
  | fuel + 1, ' ' :: cs => readHex fuel cs
  | fuel + 1, a :: b :: cs =>
    (hexDigit a).bind fun x => (hexDigit b).bind fun y => (readCopies cs).bind fun c =>
      (readHex fuel c.2).map fun r => (List.replicate c.1 (BitVec.ofNat 8 (16 * x + y)) ++ r.1, r.2)
  | _, _ => none

/-- A byte literal that ends the line. -/
def readBytes (cs : List Char) : Option (List Byte) :=
  (expectText ['h', '\''] cs).bind fun cs => (readHex cs.length cs).bind fun r => if r.2 = [] then some r.1 else none

/-- A bit literal that ends the line. -/
def readBits : List Char → Option BitLiteral
  | 'b' :: '\'' :: cs => (readBin cs).bind fun r => if r.2 = [] then some (.bin r.1) else none
  | 'h' :: '\'' :: cs =>
    (readHex cs.length cs).bind fun r => (expectText ['/'] r.2).bind fun cs =>
      (readNat cs).bind fun n => if n.2 = [] then some (.hex r.1 n.1) else none
  | _ => none

/-- PSEG's operands: `ts=<int64>, tot=<u32>, seg=<u32>, payload=h'..'`. -/
def readSegment (cs : List Char) : Option AsmLine :=
  (expectText "ts=".toList cs).bind fun cs => (readInt cs).bind fun ts =>
  (expectText ", tot=".toList ts.2).bind fun cs => (readNat cs).bind fun tot =>
  (expectText ", seg=".toList tot.2).bind fun cs => (readNat cs).bind fun seg =>
  (expectText ", payload=".toList seg.2).bind fun cs => (readBytes cs).map fun p => .pseg ts.1 tot.1 seg.1 p

/-- Read one line, `MNEMONIC operand` (R74). -/
def readLine (line : List Char) : Option AsmLine :=
  let operand := (line.dropWhile (· != ' ')).drop 1
  match String.ofList (line.takeWhile (· != ' ')) with
  | "SER" => (readBytes operand).map .ser
  | "DES" => (readBits operand).map .des
  | "ENC" => (readBits operand).map .enc
  | "DEC" => (readBits operand).map .dec
  | "SYN" => (readBits operand).map .syn
  | "NOISE" => (readBits operand).map .noise
  | "PSEG" => readSegment operand
  | _ => none

/-- The request of a line of text (R74): none for a text that is no line. -/
def assembleText (line : String) : Option (List Byte) := (readLine line.toList).bind assemble

/-- The name of an outcome code (R68). -/
def OutcomeCode.name : OutcomeCode → String
  | .ok => "OK"
  | .lost => "LOST"
  | .badlen => "BADLEN"
  | .illegal => "ILLEGAL"

/-- A byte as two hexadecimal digits. -/
def hexByte (b : Byte) : String :=
  let digit (n : Nat) : Char := if n < 10 then Char.ofNat (48 + n) else Char.ofNat (55 + n)
  String.ofList [digit (b.toNat / 16), digit (b.toNat % 16)]

/-- How a response is written: `-> RC [ERR] [MALF] [TRUNC] RLEN=<n> data=<literal>` (R74). -/
def Response.text (r : Response) : String :=
  "-> " ++ r.rc.name ++ (if r.flags.err then " ERR" else "") ++ (if r.flags.malf then " MALF" else "")
    ++ (if r.flags.trunc then " TRUNC" else "") ++ " RLEN=" ++ toString r.rlen
    ++ " data=h'" ++ " ".intercalate (r.data.map hexByte) ++ "'"

end Sys2Proof.Machine
end

