-- ==== Sys2Proof/Machine/Instances.lean ====
section
/-! DEFINITION. Any number of instances (60_exceptions.md rule R213, 20_memory.md rule R56): a list of states, each with its own
configuration and its own random source. They have no identifiers a command can see and no signal between them. -/

namespace Sys2Proof.Machine

/-- Construction of one more instance (70_reset_and_hazards.md R230, R236): the others are not touched. -/
def addInstance {K : Type} [Field K] [LinearOrder K] [FloorRing K] (instances : List State) (F : Nat) (R P : K)
    (seed : Nat) : Host.Outcome (List State) Fault Refusal :=
  match construct F R P seed with
  | .next s => .next (instances ++ [s])
  | .fault f => .fault f
  | .refused r => .refused r

/-- Instance n performs its next command (20_memory.md R56). A number that is no instance's names nothing to step, and nothing
changes (log 12). -/
def stepInstance (instances : List State) (n : Nat) : Host.Outcome (List State) Fault Refusal :=
  match instances[n]? with
  | none => .next instances
  | some s =>
    match step s with
    | .next t => .next (instances.set n t)
    | .fault f => .fault f
    | .refused r => .refused r

end Sys2Proof.Machine
end

