-- ==== Sys2Proof/Machine/Ports.lean ====
section
/-! DEFINITION. The host's side of the two ports (70_reset_and_hazards.md rule R236), and how a receiver tells requests apart in the
bytes it is sent (30_encoding.md rules R60, R63). -/

namespace Sys2Proof.Machine

/-- The host sends one whole request (70_reset_and_hazards.md R236). -/
def State.send (s : State) (request : List Byte) : State :=
  { s with requests := s.requests ++ [request] }

/-- The host takes the oldest response (70_reset_and_hazards.md R236): none where no response is waiting. -/
def State.takeResponse (s : State) : Option (List Byte × State) :=
  match s.responses with
  | [] => none
  | r :: later => some (r, { s with responses := later })

/-- Cut the first request off a stream of bytes: a header and its nD data bytes, "from which a receiver knows where one request ends
and the next begins" (30_encoding.md R63). None where the stream does not hold a whole request yet. -/
def takeRequest (stream : List Byte) : Option (List Byte × List Byte) :=
  if 4 ≤ stream.length ∧ 4 + headerDataBytes (headerOf stream) ≤ stream.length then
    some (stream.take (4 + headerDataBytes (headerOf stream)), stream.drop (4 + headerDataBytes (headerOf stream)))
  else none

/-- Cut up to n requests off a stream of bytes: the requests, and the bytes that are left (30_encoding.md R63). -/
def splitRequests : Nat → List Byte → List (List Byte) × List Byte
  | 0, stream => ([], stream)
  | n + 1, stream =>
    match takeRequest stream with
    | none => ([], stream)
    | some (request, rest) => (request :: (splitRequests n rest).1, (splitRequests n rest).2)

/-- What is left at the end of a stream, as a request: none where nothing is left. -/
def leftover : List Byte → List (List Byte)
  | [] => []
  | rest => [rest]

/-- The host sends a stream of bytes: every whole request in it arrives, in order (30_encoding.md R63).
DESIGN CHOICE (log 15): the spec does not say what becomes of bytes that stand after the last whole request, be they an incomplete
request or surplus bytes. No byte is dropped and none waits for a later stream: they arrive as one last request, which does not conform,
so the step that comes to it refuses it (70_reset_and_hazards.md R236, 92_eei_decisions.md D28). -/
def State.sendStream (s : State) (stream : List Byte) : State :=
  { s with requests := s.requests ++ (splitRequests stream.length stream).1 ++ leftover (splitRequests stream.length stream).2 }

end Sys2Proof.Machine
end

