-- ==== Sys2Proof/Safety.lean ====
section
/-! DEFINITION. The terms in which claims about CLCORE are stated: which requests the spec defines, which responses it can produce,
which states are legal, what a command's draws are, what a safe run is. -/

namespace Sys2Proof.Machine

/-- A header that is not a command (30_encoding.md R71), in the rule's own words. -/
def IllegalHeader (h : Word) : Prop :=
  h.toNat / 2 ^ 28 = 0 ∨ 8 ≤ h.toNat / 2 ^ 28 ∨ h.toNat / 2 ^ 24 % 16 ≠ 0

/-- A request the spec defines: a header with exactly its nD data bytes (30_encoding.md R60, R63; 70_reset_and_hazards.md R236). -/
def Conforming (request : List Byte) : Prop :=
  match decode request with
  | .ok (i, D) => D.length = operandBytes i
  | .error .shortHeader => False
  | .error _ => request.length = 4

/-- The fields of a response as they stand in its bytes (30_encoding.md R66, R67). -/
structure ResponseFields where
  opc : Nat
  rc : Nat
  reserved : Nat
  trunc : Nat
  malf : Nat
  err : Nat
  low : Nat
  rlen : Nat
  data : List Byte
  deriving DecidableEq, Repr

/-- Read the fields of a response from its bytes (30_encoding.md R66, R67). -/
def readResponse (b : List Byte) : ResponseFields where
  opc := beValue (b.take 4) / 2 ^ 28
  rc := beValue (b.take 4) / 2 ^ 24 % 16
  reserved := beValue (b.take 4) / 2 ^ 19 % 32
  trunc := beValue (b.take 4) / 2 ^ 18 % 2
  malf := beValue (b.take 4) / 2 ^ 17 % 2
  err := beValue (b.take 4) / 2 ^ 16 % 2
  low := beValue (b.take 4) % 2 ^ 16
  rlen := beValue ((b.drop 4).take 4)
  data := b.drop 8

/-- A response CLCORE can produce, read from its bytes: an outcome code of R68, the reserved bits 0 (92_eei_decisions.md D27), no flag
and no data unless RC is OK (R68), and for RC = OK the length and the flags that R66 and R69 give the command. -/
def LegalResponse (b : List Byte) : Prop :=
  8 ≤ b.length ∧
  let f := readResponse b
  f.reserved = 0 ∧ f.low = 0 ∧ (f.rc = 0 ∨ f.rc = 1 ∨ f.rc = 2 ∨ f.rc = 15) ∧
  (f.rc ≠ 0 → f.trunc = 0 ∧ f.malf = 0 ∧ f.err = 0 ∧ f.rlen = 0 ∧ f.data = []) ∧
  (f.rc = 1 → f.opc = 6 ∨ f.opc = 7) ∧ (f.rc = 2 → f.opc = 6) ∧
  (f.rc = 0 → 1 ≤ f.opc ∧ f.opc ≤ 7) ∧
  (f.rc = 0 → f.opc = 1 → f.trunc = 0 ∧ f.malf = 0 ∧ f.err = 0 ∧ f.data.length = (f.rlen + 7) / 8) ∧
  (f.rc = 0 → f.opc = 2 → f.malf = 0 ∧ f.err = 0 ∧ f.data.length = f.rlen) ∧
  (f.rc = 0 → f.opc = 3 → f.trunc = 0 ∧ f.err = f.malf ∧ f.rlen = 7 ∧ f.data.length = 1) ∧
  (f.rc = 0 → f.opc = 4 → f.trunc = 0 ∧ f.malf ≤ f.err ∧ f.rlen = 4 ∧ f.data.length = 1) ∧
  (f.rc = 0 → f.opc = 5 → f.trunc = 0 ∧ f.malf ≤ f.err ∧ f.rlen = 3 ∧ f.data.length = 1) ∧
  (f.rc = 0 → f.opc = 6 → f.trunc = 0 ∧ f.malf = 0 ∧ f.err = 0 ∧ f.rlen = 1960 ∧ f.data.length = 245) ∧
  (f.rc = 0 → f.opc = 7 → f.trunc = 0 ∧ f.malf = 0 ∧ (f.rlen = 140 ∨ f.rlen = 0 ∧ f.err = 1) ∧ f.data.length = 16 + f.rlen)

/-- A legal state between commands: F is at least 1 (00_scope.md R7), each threshold lies in 0 to 2^F (10_state.md R24), no command is
in progress (10_state.md R32), and every response returned is one CLCORE can produce. -/
def State.Legal (s : State) : Prop :=
  1 ≤ s.fracBits ∧ s.cfgTR ≤ 2 ^ s.fracBits ∧ s.cfgTP ≤ 2 ^ s.fracBits ∧ s.operand = [] ∧ ∀ b ∈ s.responses, LegalResponse b

/-- What `DrawUnit()` returns n draws from now. -/
def State.unitAt (s : State) (n : Nat) : Nat := (s.source.skip n).next % 2 ^ s.fracBits

/-- What `DrawIndex(1960)` returns n draws from now. -/
def State.flipAt (s : State) (n : Nat) : Nat := (s.source.skip n).next % 1960

/-- The loss check passes on the next draw (42_noise.md R153 step 1). -/
def State.LosesFrame (s : State) : Prop := s.unitAt 0 ≤ s.cfgTR

/-- The error check passes on the draw after the next (42_noise.md R153 step 2). -/
def State.FlipsBit (s : State) : Prop := s.unitAt 1 ≤ s.cfgTP

/-- How many draws one execution of the noise function takes (42_noise.md R152). -/
def State.noiseDraws (s : State) : Nat :=
  if s.unitAt 0 ≤ s.cfgTR then 1 else if s.unitAt 1 ≤ s.cfgTP then 3 else 2

/-- How many draws a command takes (42_noise.md R152): "a command that stops before its noise step ... takes no draw". -/
def State.drawsOf (s : State) : Instr → Nat
  | .noise len => if len = 1960 then s.noiseDraws else 0
  | .pseg len => if len = 140 then s.noiseDraws else 0
  | _ => 0

/-- The state after a command with this response and this many draws: nothing else changes. -/
def State.after (s : State) (response : List Byte) (draws : Nat) : State :=
  { s with operand := [], responses := s.responses ++ [response], source := s.source.skip draws }

/-- The bytes of a response, written from 30_encoding.md R66: S, RLEN, data. -/
def wire (S RLEN : Nat) (data : List Byte) : List Byte := beBytes 4 S ++ beBytes 4 RLEN ++ data

/-- A safe run of k steps: no request was refused. -/
def SafeRun (k : Nat) (s : State) : Prop := ∃ t, Host.Core.run Sys2Proof.core k s = .next t

end Sys2Proof.Machine
end

