-- ==== Sys2Proof/Certificates/Slice0/Obligations.lean ====
section
/-! DEFINITION. The statements about the model, each from the rules of spec/ that its docstring names. -/

open Sys2Proof Sys2Proof.Machine

namespace Sys2Proof.Claims

/-- The packed codewords of 41_blockcoder.md R124, by information nibble. -/
def packedCodewords : List Byte :=
  [0x00, 0x16, 0x2A, 0x3C, 0x4C, 0x5A, 0x66, 0x70, 0x8E, 0x98, 0xA4, 0xB2, 0xC2, 0xD4, 0xE8, 0xFE]

/-- The codewords of R124 as 7-bit words `v[6:0]`, by information nibble. -/
def codewords : List Nat :=
  [0x00, 0x0B, 0x15, 0x1E, 0x26, 0x2D, 0x33, 0x38, 0x47, 0x4C, 0x52, 0x59, 0x61, 0x6A, 0x74, 0x7F]

/-- The weights of R124, by information nibble. -/
def weights : List Nat := [0, 3, 3, 4, 3, 4, 4, 3, 4, 3, 3, 4, 3, 4, 4, 7]

/-- The n low bits of a number, most significant first (00_scope.md R10). -/
def wordBits (n w : Nat) : Bits := (List.range n).map fun k => w.testBit (n - 1 - k)

/-- The number of ones of a bit sequence. -/
def weight (s : Bits) : Nat := s.count true

/-- The positions of the ones of a bit sequence. -/
def support (s : Bits) : List Nat := (List.range s.length).filter fun p => s.getD p false

/-- The three syndrome equations of 41_blockcoder.md R125 on the block carried in one byte (v6 its bit 7, v0 its bit 1), as the
number `{s2, s1, s0}`. -/
def syndromeOfByte (b : Byte) : Nat :=
  let v6 := b.getLsbD 7
  let v5 := b.getLsbD 6
  let v4 := b.getLsbD 5
  let v3 := b.getLsbD 4
  let v2 := b.getLsbD 3
  let v1 := b.getLsbD 2
  let v0 := b.getLsbD 1
  4 * (v2 ^^ v4 ^^ v5 ^^ v6).toNat + 2 * (v1 ^^ v3 ^^ v5 ^^ v6).toNat + (v0 ^^ v3 ^^ v4 ^^ v6).toNat

/-- Bit k of a byte sequence in stream order (bit `7 - (k mod 8)` of byte `k div 8`, 20_memory.md R42) flipped. -/
def flipStreamBit (D : List Byte) (k : Nat) : List Byte := D.modify (k / 8) (· ^^^ (0x80#8 >>> (k % 8)))

/-- The payload after a flip at frame bit K (43_channel.md R183). -/
def flipPayload (payload : List Byte) (K : Nat) : List Byte :=
  if K % 7 < 4 then flipStreamBit payload (4 * (K / 7) + K % 7) else payload

end Sys2Proof.Claims

open Sys2Proof.Claims

/-! ## Encoding -/

/-- 30_encoding.md R76 (which the spec marks as derived): the example encodings of the spec, through the assembler and the decoder, and the response to its illegal header. -/
def Obligations.SpecExamplesAssembleAndDecode : Prop :=
  assemble (.ser [0xA5, 0x0F]) = some [0x10, 0x00, 0x00, 0x02, 0xA5, 0x0F] ∧
  assemble (.des (.bin [true, false, true, false, false, true, false, true, false, false, false, false])) =
    some [0x20, 0x00, 0x00, 0x0C, 0xA5, 0x00] ∧
  assemble (.enc (.bin [true, false, true, true])) = some [0x30, 0x00, 0x00, 0x04, 0xB0] ∧
  assemble (.dec (.bin [true, false, true, true, false, false, true])) = some [0x40, 0x00, 0x00, 0x07, 0xB2] ∧
  assemble (.syn (.bin [true, false, true, true, true, false, true])) = some [0x50, 0x00, 0x00, 0x07, 0xBA] ∧
  (∀ B : List Byte, B.length = 245 → assemble (.noise (.hex B 1960)) = some ([0x60, 0x00, 0x07, 0xA8] ++ B) ∧
    decode ([0x60, 0x00, 0x07, 0xA8] ++ B) = .ok (.noise 1960, B)) ∧
  assemble (.pseg 1 1 1 ([0x48, 0x69] ++ List.replicate 138 0x00)) =
    some ([0x70, 0x00, 0x00, 0x8C, 0x00, 0x00, 0x00, 0x00, 0x00, 0x00, 0x00, 0x01, 0x00, 0x00, 0x00, 0x01, 0x00, 0x00, 0x00, 0x01,
      0x48, 0x69] ++ List.replicate 138 0x00) ∧
  decode [0x10, 0x00, 0x00, 0x02, 0xA5, 0x0F] = .ok (.ser 2, [0xA5, 0x0F]) ∧
  decode [0x20, 0x00, 0x00, 0x0C, 0xA5, 0x00] = .ok (.des 12, [0xA5, 0x00]) ∧
  decode [0x30, 0x00, 0x00, 0x04, 0xB0] = .ok (.enc 4, [0xB0]) ∧
  decode [0x40, 0x00, 0x00, 0x07, 0xB2] = .ok (.dec 7, [0xB2]) ∧
  decode [0x50, 0x00, 0x00, 0x07, 0xBA] = .ok (.syn 7, [0xBA]) ∧
  (∀ D : List Byte, decode ([0x70, 0x00, 0x00, 0x8C] ++ D) = .ok (.pseg 140, D)) ∧
  (∀ (s : State) (later : List (List Byte)), s.requests = [0x80, 0x00, 0x00, 0x00] :: later →
    step s = .next ({ s with requests := later }.after [0x8F, 0x00, 0x00, 0x00, 0x00, 0x00, 0x00, 0x00] 0))

/-- spec/opcode_table.json: a word of each row, written out from its encoding, decodes to the row's command. -/
def Obligations.TableWordsDecodeToTheirRows : Prop :=
  decodeTableWord 32 0x10000002 = some (.ser 2) ∧ decodeTableWord 32 0x2000000C = some (.des 12) ∧
  decodeTableWord 32 0x30000004 = some (.enc 4) ∧ decodeTableWord 32 0x40000007 = some (.dec 7) ∧
  decodeTableWord 32 0x50000007 = some (.syn 7) ∧ decodeTableWord 32 0x60000008 = some (.noise 8) ∧
  decodeTableWord 32 0x70000001 = some (.pseg 1) ∧ decodeTableWord 32 0x00000000 = none ∧
  decodeTableWord 32 0x80000000 = none ∧ decodeTableWord 32 0x71000000 = none

/-- 30_encoding.md R60 to R64: the header of every well-formed command decodes to it, and the bytes after it are its data. -/
def Obligations.DecodeOfEncodeIsTheCommand : Prop :=
  ∀ (i : Instr) (D : List Byte), i.WellFormed → decode (encode i ++ D) = .ok (i, D)

/-- 30_encoding.md R71, R72, R73: every header is a legal command, whose fields are its bits, or it is illegal and never both. -/
def Obligations.EveryHeaderIsACommandOrIllegal : Prop :=
  ∀ h : Word,
    (IllegalHeader h → decodeHeader h = .error (.reservedField h) ∨ decodeHeader h = .error (.illegalOpcode h)) ∧
    (¬ IllegalHeader h → ∃ i : Instr, i.WellFormed ∧ decodeHeader h = .ok i ∧ encodeHeader i = h ∧
      i.opcode.toNat = h.toNat / 2 ^ 28 ∧ i.len = h.toNat % 2 ^ 24)

/-- 30_encoding.md R75: every assembler line is exactly one command: its request conforms and decodes to that command. -/
def Obligations.EveryLineIsOneConformingRequest : Prop :=
  ∀ (line : AsmLine) (request : List Byte), assemble line = some request →
    Conforming request ∧ ∃ (i : Instr) (D : List Byte), i.WellFormed ∧ decode request = .ok (i, D) ∧ request = encode i ++ D

/-- 30_encoding.md R63: the length of a request is known from its header alone, so requests sent one after the other are told apart again,
whatever they are. -/
def Obligations.RequestsAreToldApart : Prop :=
  (∀ (i : Instr) (D : List Byte), i.WellFormed → (Conforming (encode i ++ D) ↔ D.length = operandBytes i)) ∧
  (∀ len : Nat, operandBytes (.ser len) = len ∧ operandBytes (.pseg len) = 16 + len ∧
    operandBytes (.des len) = (len + 7) / 8 ∧ operandBytes (.enc len) = (len + 7) / 8 ∧ operandBytes (.dec len) = (len + 7) / 8 ∧
    operandBytes (.syn len) = (len + 7) / 8 ∧ operandBytes (.noise len) = (len + 7) / 8) ∧
  (∀ h : Word, IllegalHeader h → headerDataBytes h = 0 ∧ Conforming (beBytes 4 h.toNat)) ∧
  (∀ (requests : List (List Byte)) (rest : List Byte), (∀ request ∈ requests, Conforming request) →
    splitRequests requests.length (requests.flatten ++ rest) = (requests, rest))

/-- 30_encoding.md R63, 70_reset_and_hazards.md R236: a stream that the host sends joins the waiting requests cut at the request
boundaries, no byte lost and none invented. What is left at its end begins with no whole request (no first part of it conforms, nor does
all of it) and arrives as one last request, which the step refuses: the model's choice (log 15). -/
def Obligations.StreamBytesAreNeitherLostNorInvented : Prop :=
  ∀ (s : State) (stream : List Byte), ∃ (whole tail : List (List Byte)),
    s.sendStream stream = { s with requests := s.requests ++ whole ++ tail } ∧ (whole ++ tail).flatten = stream ∧
    (∀ request ∈ whole, Conforming request) ∧ (tail = [] ∨ ∃ rest, tail = [rest] ∧ rest ≠ [] ∧ ∀ n, ¬ Conforming (rest.take n))

/-! ## The step -/

/-- 30_encoding.md R73, 20_memory.md R50: when the oldest request at the command port decodes to a command, the step is that command's
meaning, on the state that has taken the request from the port and holds its data bytes as the operand. -/
def Obligations.StepRunsTheDecodedCommand : Prop :=
  ∀ (s : State) (request D : List Byte) (later : List (List Byte)) (i : Instr),
    s.requests = request :: later → decode request = .ok (i, D) →
      step s = exec i { s with requests := later, operand := D }

/-- 30_encoding.md R71: an illegal header reads no data, takes no draw, changes no state and is answered with S = (OPC, 0xF, 0),
RLEN = 0; every other header is a legal command. -/
def Obligations.IllegalHeaderIsAnsweredIllegal : Prop :=
  (∀ (h : Word) (s : State) (later : List (List Byte)), IllegalHeader h → s.requests = beBytes 4 h.toNat :: later →
    step s = .next ({ s with requests := later }.after (wire (h.toNat / 2 ^ 28 * 2 ^ 28 + 0xF * 2 ^ 24) 0 []) 0)) ∧
  (∀ h : Word, ¬ IllegalHeader h → ∃ i : Instr, i.WellFormed ∧ decodeHeader h = .ok i)

/-- 70_reset_and_hazards.md R236, R240, 92_eei_decisions.md D28: with a request waiting, the step completes exactly when the request
conforms, and is refused exactly when it does not. The rules refuse a request whose data length is not nD; that a request of fewer than
four bytes (R60) is refused, and an illegal header that is followed by data (nD = 0, R63, R71), is the model's choice (DEDUCED, log 5). -/
def Obligations.StepCompletesExactlyOnConformingRequests : Prop :=
  ∀ (s : State) (request : List Byte) (later : List (List Byte)), s.requests = request :: later →
    (Conforming request ↔ ∃ t, step s = .next t) ∧ (¬ Conforming request ↔ ∃ r, step s = .refused r)

/-- 60_exceptions.md R215: with no request waiting the instance holds its state (the model's step then changes nothing, log 4). -/
def Obligations.IdleInstanceHoldsItsState : Prop :=
  ∀ s : State, s.requests = [] → step s = .next s

/-- 30_encoding.md R66: every request gets exactly one response, laid out as S, RLEN and nR data bytes; the request is taken. -/
def Obligations.EveryRequestGetsOneResponse : Prop :=
  ∀ (s t : State) (request : List Byte) (later : List (List Byte)), s.requests = request :: later → step s = .next t →
    t.requests = later ∧ t.operand = [] ∧ ∃ b, t.responses = s.responses ++ [b] ∧ LegalResponse b

/-- 20_memory.md R50, 70_reset_and_hazards.md R240, R241: a list of conforming requests is performed whole, in as many steps, one
response each, with the configuration unchanged. -/
def Obligations.RunPerformsAllRequests : Prop :=
  ∀ s : State, (∀ request ∈ s.requests, Conforming request) →
    ∃ t, Host.Core.run Sys2Proof.core s.requests.length s = .next t ∧ t.requests = [] ∧
      t.responses.length = s.responses.length + s.requests.length ∧ s.responses <+: t.responses ∧
      t.cfgTR = s.cfgTR ∧ t.cfgTP = s.cfgTP ∧ t.fracBits = s.fracBits

/-! ## Reset, configuration and invariants -/

/-- 70_reset_and_hazards.md R230, R231: reset is the construction of an instance with the open arguments: the thresholds are the
floors, no draw has been taken, no command is in progress, nothing was answered. -/
def Obligations.ResetIsAConstruction : Prop :=
  construct Config.drawFracBits Config.lossProbability.val Config.errorProbability.val Config.resetSeed = .next State.reset ∧
  (State.reset.cfgTR : Int) = ⌊Config.lossProbability.val * 2 ^ State.reset.fracBits⌋ ∧
  (State.reset.cfgTP : Int) = ⌊Config.errorProbability.val * 2 ^ State.reset.fracBits⌋ ∧
  State.reset.source.drawn = 0 ∧ State.reset.operand = [] ∧ State.reset.requests = [] ∧ State.reset.responses = []

/-- 10_state.md R24, 70_reset_and_hazards.md R231: the state after reset is legal. -/
def Obligations.ResetIsLegal : Prop := State.reset.Legal

/-- 10_state.md R24, R32, 30_encoding.md R66 to R69: every step keeps a legal state legal, so thresholds stay in range, no command is
left in progress and no response is one the spec rules out. -/
def Obligations.StepKeepsTheStateLegal : Prop :=
  ∀ s t : State, s.Legal → step s = .next t → t.Legal

/-- 10_state.md R25, 70_reset_and_hazards.md R232, 00_scope.md R7: the thresholds are loaded once, at construction, from any real R
and P in [0,1]; no other construction makes an instance; no step changes them. A construction from rational numbers is the construction
from the same real numbers (that the model takes either is its choice, log 3). That a construction with F = 0 is refused is the model's
choice, DEDUCED from R7 (log 5). -/
def Obligations.ConfigurationIsSetOnceAtConstruction : Prop :=
  (∀ (F seed : Nat) (R P : ℝ) (s : State), construct F R P seed = .next s →
    (s.cfgTR : Int) = ⌊R * 2 ^ F⌋ ∧ (s.cfgTP : Int) = ⌊P * 2 ^ F⌋ ∧ s.fracBits = F ∧ s.source.drawn = 0) ∧
  (∀ (F seed : Nat) (R P : ℝ), (1 ≤ F ∧ 0 ≤ R ∧ R ≤ 1 ∧ 0 ≤ P ∧ P ≤ 1) ↔ ∃ s, construct F R P seed = .next s) ∧
  (∀ (F seed : Nat) (R P : ℚ), construct F R P seed = construct F (R : ℝ) (P : ℝ) seed) ∧
  (∀ s t : State, step s = .next t → t.cfgTR = s.cfgTR ∧ t.cfgTP = s.cfgTP ∧ t.fracBits = s.fracBits)

/-- 10_state.md R23 (the loss-free form is marked as derived there): the threshold form loses nothing, for every real probability. Last
clause: of a rational number the model computes the threshold of the same real number (the model's own, log 3). -/
def Obligations.ThresholdTestIsExact : Prop :=
  (∀ (F : Nat) (X : ℝ), 0 ≤ X → X ≤ 1 →
    (threshold F X : Int) = ⌊X * 2 ^ F⌋ ∧ threshold F X ≤ 2 ^ F ∧
    (∀ U : Nat, U < 2 ^ F → ((U : ℝ) / 2 ^ F ≤ X ↔ U ≤ threshold F X))) ∧
  (∀ F : Nat, threshold F (1 : ℝ) = 2 ^ F ∧ threshold F (0 : ℝ) = 0) ∧
  (∀ F T : Nat, T ≤ 2 ^ F → threshold F ((T : ℝ) / 2 ^ F) = T) ∧
  (∀ (F : Nat) (X : ℚ), threshold F X = threshold F (X : ℝ))

/-- 20_memory.md R56: instances share no state: a step of one leaves the others as they are, and steps of two can be taken in either
order with the same result (the list of instances is the model's, log 12). -/
def Obligations.InstancesAreIndependent : Prop :=
  (∀ (sys sys' : List State) (n m : Nat), stepInstance sys n = .next sys' → m ≠ n → sys'[m]? = sys[m]?) ∧
  (∀ (sys a b : List State) (n m : Nat), n ≠ m → stepInstance sys n = .next a → stepInstance sys m = .next b →
    ∃ c, stepInstance a m = .next c ∧ stepInstance b n = .next c)

/-! ## BitStreamCodec -/

/-- 40_bitstream.md R100: `bytesToBits` maps each byte to 8 bits, most significant first. -/
def Obligations.BytesToBitsIsMostSignificantFirst : Prop :=
  ∀ B : List Byte, (bytesToBits B).length = 8 * B.length ∧
    ∀ (m j : Nat) (b : Byte), B[m]? = some b → j < 8 → (bytesToBits B)[8 * m + j]? = some (b.getLsbD (7 - j))

/-- 40_bitstream.md R101: `bitsToBytes` takes groups of 8, the first bit of each the most significant; what is left over is dropped. -/
def Obligations.BitsToBytesTakesGroupsOfEight : Prop :=
  ∀ s : Bits, (bitsToBytes s).length = s.length / 8 ∧ (truncated s = true ↔ s.length % 8 ≠ 0) ∧
    ∀ m < s.length / 8, ∃ b, (bitsToBytes s)[m]? = some b ∧
      b.toNat = ∑ j ∈ Finset.range 8, (s.getD (8 * m + j) false).toNat * 2 ^ (7 - j)

/-- 40_bitstream.md R105: the round-trip law, both ways (the second way the spec marks as derived). -/
def Obligations.CodecRoundTrip : Prop :=
  (∀ B : List Byte, bitsToBytes (bytesToBits B) = B ∧ truncated (bytesToBits B) = false) ∧
  (∀ s : Bits, s.length % 8 = 0 → bytesToBits (bitsToBytes s) = s)

/-- 30_encoding.md R65: operand element k is bit `7 - (k mod 8)` of byte `k div 8` and the pad bits are ignored; a result is carried in
`(len+7) div 8` bytes whose pad bits are 0; the codeword 1011001 is carried as 0xB2. -/
def Obligations.BitPackingIsMostSignificantFirst : Prop :=
  (∀ (len : Nat) (D : List Byte), D.length = (len + 7) / 8 → (bitOperand len D).length = len ∧
    ∀ (k : Nat) (b : Byte), k < len → D[k / 8]? = some b → (bitOperand len D)[k]? = some (b.getLsbD (7 - k % 8))) ∧
  (∀ s : Bits, (pack s).length = (s.length + 7) / 8 ∧
    bytesToBits (pack s) = s ++ List.replicate ((8 - s.length % 8) % 8) false) ∧
  pack [true, false, true, true, false, false, true] = [0xB2]

/-- 40_bitstream.md R102: SER answers OK, no flag, RLEN = 8*LEN, and its data bytes equal the operand bytes; nothing else changes. -/
def Obligations.SerAnswersTheBitsOfItsBytes : Prop :=
  ∀ (len : Nat) (s : State), len < 2 ^ 24 → s.operand.length = len →
    decode (beBytes 4 (0x10000000 + len) ++ s.operand) = .ok (.ser len, s.operand) ∧
    exec (.ser len) s = .next (s.after (wire 0x10000000 (8 * len) s.operand) 0) ∧
    bitOperand (8 * len) s.operand = bytesToBits s.operand ∧ 8 * len ≤ 134217720

/-- 40_bitstream.md R103, R104: DES answers OK with the complete bytes of its bit operand, RLEN = LEN div 8, and TRUNC alone exactly
when LEN is no multiple of 8; nothing else changes. -/
def Obligations.DesAnswersTheCompleteBytes : Prop :=
  ∀ (len : Nat) (s : State), len < 2 ^ 24 → s.operand.length = (len + 7) / 8 →
    decode (beBytes 4 (0x20000000 + len) ++ s.operand) = .ok (.des len, s.operand) ∧
    exec (.des len) s = .next (s.after
      (wire (if len % 8 = 0 then 0x20000000 else 0x20040000) (len / 8) (s.operand.take (len / 8))) 0)

/-! ## LinearBlockCoder -/

/-- 41_blockcoder.md R124 (which the spec marks as derived): the complete encoding table: codeword, packed byte and weight of every information block. -/
def Obligations.EncodingTable : Prop :=
  (∀ x < 16, enc4 (wordBits 4 x) = wordBits 7 (codewords.getD x 0) ∧ pack (enc4 (wordBits 4 x)) = [packedCodewords.getD x 0] ∧
    weight (enc4 (wordBits 4 x)) = weights.getD x 0) ∧
  (∀ x < 16, x ≠ 0 → 3 ≤ weight (enc4 (wordBits 4 x))) ∧ weight (enc4 (wordBits 4 1)) = 3

/-- 41_blockcoder.md R131 (which the spec marks as derived): the syndrome depends only on the error pattern, and the seven single-bit syndromes are these. -/
def Obligations.SyndromeOfSingleErrors : Prop :=
  (∀ x < 16, ∀ e < 128, syn7 ((enc4 (wordBits 4 x)).zipWith xor (wordBits 7 e)) = syn7 (wordBits 7 e)) ∧
  ((List.range 7).map fun p => syn7 (flipBit (List.replicate 7 false) p)) =
    [wordBits 3 7, wordBits 3 6, wordBits 3 5, wordBits 3 3, wordBits 3 4, wordBits 3 2, wordBits 3 1]

/-- 41_blockcoder.md R133 (which the spec marks as derived): round trip, single-bit sensitivity, double errors, the undetected triples, and what passes undetected. -/
def Obligations.LawsOfTheCode : Prop :=
  (∀ x < 16, dec7 (enc4 (wordBits 4 x)) = ⟨wordBits 4 x, false, false⟩) ∧
  (∀ x < 16, ∀ p < 7, dec7 (flipBit (enc4 (wordBits 4 x)) p) = ⟨(flipBit (enc4 (wordBits 4 x)) p).take 4, true, false⟩) ∧
  (∀ x < 16, ∀ p < 7, ∀ q < 7, p ≠ q →
    (dec7 (flipBit (flipBit (enc4 (wordBits 4 x)) p) q)).errorDetected = true) ∧
  (∀ e < 128, weight (wordBits 7 e) = 3 → (syn7 (wordBits 7 e) = wordBits 3 0 ↔
    support (wordBits 7 e) ∈ [[0, 1, 6], [0, 2, 5], [0, 3, 4], [1, 2, 3], [1, 4, 5], [2, 4, 6], [3, 5, 6]])) ∧
  (∀ e < 128, syn7 (wordBits 7 e) = wordBits 3 0 ↔ e ∈ codewords) ∧
  (∀ p < 7, ∀ q < 7, syn7 (flipBit (List.replicate 7 false) p) = syn7 (flipBit (List.replicate 7 false) q) → p = q)

/-- 41_blockcoder.md R121 (an inference the spec marks as derived), 90_conflicts.md C1: the code of the equations is not cyclic: the
shift 0010110 of the codeword 0001011 is no codeword. -/
def Obligations.TheCodeIsNotCyclic : Prop :=
  enc4 (wordBits 4 1) = wordBits 7 0b0001011 ∧ (∀ x < 16, enc4 (wordBits 4 x) ≠ wordBits 7 0b0010110) ∧
  enc4 (wordBits 4 2) = wordBits 7 0b0010101

/-- 41_blockcoder.md R128, R129: ENC answers the codeword of R124 for LEN = 4 whatever the pad bits are, and for every other LEN the zero block
with ERR and MALF; nothing else changes. -/
def Obligations.EncAnswersTheCodeword : Prop :=
  ∀ (len : Nat) (s : State), len < 2 ^ 24 → s.operand.length = (len + 7) / 8 →
    decode (beBytes 4 (0x30000000 + len) ++ s.operand) = .ok (.enc len, s.operand) ∧
    exec (.enc len) s = .next (s.after
      (if len = 4 then wire 0x30000000 7 [packedCodewords.getD ((s.operand.headD 0).toNat / 16) 0]
       else wire 0x30030000 7 [0x00]) 0)

/-- 41_blockcoder.md R130: DEC answers the first four received bits, never corrected, with ERR exactly when the syndrome is nonzero, and
for LEN other than 7 the zero block with ERR and MALF; nothing else changes. -/
def Obligations.DecAnswersTheUncorrectedBits : Prop :=
  ∀ (len : Nat) (s : State), len < 2 ^ 24 → s.operand.length = (len + 7) / 8 →
    decode (beBytes 4 (0x40000000 + len) ++ s.operand) = .ok (.dec len, s.operand) ∧
    exec (.dec len) s = .next (s.after
      (if len = 7 then wire (if syndromeOfByte (s.operand.headD 0) = 0 then 0x40000000 else 0x40010000) 4
         [s.operand.headD 0 &&& 0xF0#8]
       else wire 0x40030000 4 [0x00]) 0)

/-- 41_blockcoder.md R132: SYN answers the syndrome s2, s1, s0, with ERR exactly when it is nonzero, and for LEN other than 7 zeros with
ERR and MALF; nothing else changes. -/
def Obligations.SynAnswersTheSyndrome : Prop :=
  ∀ (len : Nat) (s : State), len < 2 ^ 24 → s.operand.length = (len + 7) / 8 →
    decode (beBytes 4 (0x50000000 + len) ++ s.operand) = .ok (.syn len, s.operand) ∧
    exec (.syn len) s = .next (s.after
      (if len = 7 then wire (if syndromeOfByte (s.operand.headD 0) = 0 then 0x50000000 else 0x50010000) 3
         [BitVec.ofNat 8 (32 * syndromeOfByte (s.operand.headD 0))]
       else wire 0x50030000 3 [0x00]) 0)

/-! ## NoiseSimulator -/

/-- 42_noise.md R150, R151, 10_state.md R27: a draw is in its range and takes one answer of the source, and every value in range can be
drawn (the form of the source is the model's, log 1). -/
def Obligations.DrawsAreAnyValueInRange : Prop :=
  ∀ s : State,
    (drawUnit s).1 < 2 ^ s.fracBits ∧ (drawUnit s).2 = { s with source := s.source.advance } ∧
    (∀ n, 0 < n → (drawIndex n s).1 < n ∧ (drawIndex n s).2 = { s with source := s.source.advance }) ∧
    s.source.advance.drawn = s.source.drawn + 1 ∧
    (∀ U < 2 ^ s.fracBits, ∃ answers, (drawUnit { s with source := { s.source with answers := answers } }).1 = U) ∧
    (∀ n, ∀ K < n, ∃ answers, (drawIndex n { s with source := { s.source with answers := answers } }).1 = K)

/-- 42_noise.md R152: which draws the noise function takes and in which order, and that no command takes any other. -/
def Obligations.DrawOrderAndCountAreExact : Prop :=
  (∀ (e : Bits) (s : State), noise e s =
    if s.unitAt 0 ≤ s.cfgTR then (.lost, { s with source := s.source.skip 1 })
    else if s.unitAt 1 ≤ s.cfgTP then (.frame (flipBit e (s.flipAt 2)), { s with source := s.source.skip 3 })
    else (.frame e, { s with source := s.source.skip 2 })) ∧
  (∀ (s t : State) (request D : List Byte) (later : List (List Byte)) (i : Instr), s.requests = request :: later →
    decode request = .ok (i, D) → step s = .next t → t.source = s.source.skip (s.drawsOf i)) ∧
  (∀ (s t : State) (request : List Byte) (later : List (List Byte)) (r : Reject), s.requests = request :: later →
    decode request = .error r → step s = .next t → t.source = s.source)

/-- 42_noise.md R157 (which the spec marks as derived): the corner cases of the thresholds. -/
def Obligations.ThresholdCornerCases : Prop :=
  ∀ (e : Bits) (s : State), e.length = 1960 →
    (s.cfgTR = 2 ^ s.fracBits → (noise e s).1 = .lost) ∧
    (s.cfgTR = 0 → ((noise e s).1 = .lost ↔ s.unitAt 0 = 0)) ∧
    (s.cfgTP = 2 ^ s.fracBits → (noise e s).1 = .lost ∨ (noise e s).1 = .frame (flipBit e (s.flipAt 2))) ∧
    (s.cfgTP = 0 → (noise e s).1 ≠ .lost → ((noise e s).1 = .frame e ↔ s.unitAt 1 ≠ 0)) ∧
    (s.unitAt 0 = s.cfgTR → (noise e s).1 = .lost) ∧ (s.unitAt 0 = s.cfgTR + 1 → (noise e s).1 ≠ .lost) ∧
    (∀ k, (flipBit e 0)[k]? = (e[k]?).map fun b => if k = 0 then !b else b) ∧
    (∀ k, (flipBit e 1959)[k]? = (e[k]?).map fun b => if k = 1959 then !b else b)

/-- 42_noise.md R153, R154, R155, R156: NOISE refuses a length other than 1960 without a draw; else it answers LOST, or the frame, or the
frame with exactly the drawn bit flipped; nothing else changes. -/
def Obligations.NoiseAnswersTheFrameWithAtMostOneFlip : Prop :=
  ∀ (len : Nat) (s : State), len < 2 ^ 24 → s.operand.length = (len + 7) / 8 →
    decode (beBytes 4 (0x60000000 + len) ++ s.operand) = .ok (.noise len, s.operand) ∧
    exec (.noise len) s = .next (
      if len ≠ 1960 then s.after (wire 0x62000000 0 []) 0
      else if s.unitAt 0 ≤ s.cfgTR then s.after (wire 0x61000000 0 []) 1
      else if s.unitAt 1 ≤ s.cfgTP then s.after (wire 0x60000000 1960 (flipStreamBit s.operand (s.flipAt 2))) 3
      else s.after (wire 0x60000000 1960 s.operand) 2)

/-- 20_memory.md R49: SER, DES, ENC, DEC and SYN read and write no state: from any two states with the same operand they give the
same response. -/
def Obligations.PureCommandsReadNoState : Prop :=
  ∀ (i : Instr) (s t : State), (∀ len, i ≠ .noise len ∧ i ≠ .pseg len) → s.operand = t.operand →
    s.operand.length = operandBytes i →
    ∃ b, exec i s = .next (s.after b 0) ∧ exec i t = .next (t.after b 0)

/-- 10_state.md R27, 20_memory.md R51: what a command answers depends only on its operand, F, the two thresholds and the next draws. -/
def Obligations.CommandsSeeOnlyOperandConfigurationAndDraws : Prop :=
  ∀ (i : Instr) (s t : State), s.operand = t.operand → s.fracBits = t.fracBits → s.cfgTR = t.cfgTR → s.cfgTP = t.cfgTP →
    (∀ n < 3, (s.source.skip n).next = (t.source.skip n).next) → s.operand.length = operandBytes i →
    ∃ b, exec i s = .next (s.after b (s.drawsOf i)) ∧ exec i t = .next (t.after b (s.drawsOf i))

/-! ## ChannelLayer -/

/-- 30_encoding.md R70: the metadata block's fields are big-endian, and the block is carried bit for bit. -/
def Obligations.MetadataBlockIsBigEndian : Prop :=
  (∀ D : List Byte, D.length = 16 → metadataBlock (readMetadata D) = D ∧
    (readMetadata D).timestamp.toNat = beValue (D.take 8) ∧
    (readMetadata D).totalSegments.toNat = beValue ((D.drop 8).take 4) ∧
    (readMetadata D).segmentNumber.toNat = beValue (D.drop 12)) ∧
  (∀ m : Metadata, (metadataBlock m).length = 16 ∧ readMetadata (metadataBlock m) = m)

/-- 43_channel.md R173: the frame has 1960 bits, and its element 7j+p is element p of block j's codeword. -/
def Obligations.FrameIsTheCodewordsInBlockOrder : Prop :=
  ∀ b : Bits, b.length = 1120 → (encodeFrame b).length = 1960 ∧
    ∀ j < 280, ∀ p < 7, (encodeFrame b)[7 * j + p]? = (enc4 (slice b (4 * j) 4))[p]?

/-- 20_memory.md R44 (which the spec marks as derived): block 2m carries the high nibble of payload byte m and block 2m+1 the low nibble; a frame bit with p < 4 is the
encoded copy of payload bit 4*(k div 7)+p, and one with p = 4, 5, 6 is the parity bit r2, r1, r0 of its block. -/
def Obligations.BlocksCarryNibbles : Prop :=
  ∀ B : List Byte, B.length = 140 →
    (∀ (m : Nat) (b : Byte), B[m]? = some b →
      slice (bytesToBits B) (4 * (2 * m)) 4 = [b.getLsbD 7, b.getLsbD 6, b.getLsbD 5, b.getLsbD 4] ∧
      slice (bytesToBits B) (4 * (2 * m + 1)) 4 = [b.getLsbD 3, b.getLsbD 2, b.getLsbD 1, b.getLsbD 0]) ∧
    (∀ k < 1960, k % 7 < 4 → (encodeFrame (bytesToBits B))[k]? = (bytesToBits B)[4 * (k / 7) + k % 7]?) ∧
    (∀ (j : Nat) (i3 i2 i1 i0 : Bool), j < 280 → slice (bytesToBits B) (4 * j) 4 = [i3, i2, i1, i0] →
      (encodeFrame (bytesToBits B))[7 * j + 4]? = some (i1 ^^ i2 ^^ i3) ∧
      (encodeFrame (bytesToBits B))[7 * j + 5]? = some (i0 ^^ i2 ^^ i3) ∧
      (encodeFrame (bytesToBits B))[7 * j + 6]? = some (i0 ^^ i1 ^^ i3))

/-- 20_memory.md R57, 43_channel.md R172: blocks are independent: two payloads that agree on block j give frames that agree on it, and
decoding block j reads only its own 7 bits. -/
def Obligations.BlocksAreIndependent : Prop :=
  ∀ j < 280,
    (∀ b c : Bits, b.length = 1120 → c.length = 1120 → slice b (4 * j) 4 = slice c (4 * j) 4 →
      slice (encodeFrame b) (7 * j) 7 = slice (encodeFrame c) (7 * j) 7) ∧
    (∀ r q : Bits, r.length = 1960 → q.length = 1960 → slice r (7 * j) 7 = slice q (7 * j) 7 →
      (decodeFrame r)[j]? = (decodeFrame q)[j]?)

/-- 43_channel.md R171: a payload of any length other than 140 is delivered empty, with the error flag and the metadata copied, and
without a draw; nothing else changes. That the metadata are copied is the spec's own decision D19 (log 8). -/
def Obligations.PsegSizeMismatchIsDeliveredEmpty : Prop :=
  ∀ (len : Nat) (s : State), len < 2 ^ 24 → len ≠ 140 → s.operand.length = 16 + len →
    exec (.pseg len) s = .next (s.after (wire 0x70010000 0 (s.operand.take 16)) 0)

/-- 43_channel.md R174, 42_noise.md R154: when the loss check passes, PSEG answers LOST with no data after one draw; nothing else
changes. -/
def Obligations.PsegLostFrameIsAnsweredLost : Prop :=
  ∀ s : State, s.operand.length = 156 → s.LosesFrame →
    exec (.pseg 140) s = .next (s.after (wire 0x71000000 0 []) 1)

/-- 43_channel.md R181 (which the spec marks as derived): when the frame is neither lost nor flipped, PSEG delivers the same payload and metadata with isChannelError = 0;
nothing else changes. -/
def Obligations.PsegWithoutNoiseDeliversThePayload : Prop :=
  ∀ s : State, s.operand.length = 156 → ¬ s.LosesFrame → ¬ s.FlipsBit →
    exec (.pseg 140) s = .next (s.after (wire 0x70000000 140 s.operand) 2)

/-- 43_channel.md R183 (which the spec marks as derived): when frame bit K is flipped, PSEG delivers the payload with exactly payload bit 4j+p flipped if p < 4 and the
payload itself if not, in both cases with isChannelError = 1 and the metadata copied; nothing else changes. -/
def Obligations.PsegFlipLandsInOnePayloadBit : Prop :=
  ∀ s : State, s.operand.length = 156 → ¬ s.LosesFrame → s.FlipsBit →
    exec (.pseg 140) s = .next (s.after
      (wire 0x70010000 140 (s.operand.take 16 ++ flipPayload (s.operand.drop 16) (s.flipAt 2))) 3)

/-- 43_channel.md R182 (which the spec marks as derived): for a 140-byte payload that is delivered, isChannelError = 1 exactly when a bit was flipped; with a flip at
frame bit K block K div 7 is flagged and no other. -/
def Obligations.ErrorFlagMeansAFlip : Prop :=
  (∀ (seg : Segment) (out : Segment) (s : State), seg.payload.length = 140 → (processSegment seg s).1 = .delivered out →
    (out.isChannelError = true ↔ s.FlipsBit)) ∧
  (∀ (b : Bits) (K j : Nat), b.length = 1120 → K < 1960 → j < 280 →
    ((decodeFrame (flipBit (encodeFrame b) K))[j]?).map Decoded.errorDetected = some (decide (j = K / 7))) ∧
  (∀ (b : Bits) (j : Nat), b.length = 1120 → j < 280 →
    ((decodeFrame (encodeFrame b))[j]?).map Decoded.errorDetected = some false)

/-- 43_channel.md R180: PSEG completes on every operand of 16 + LEN bytes; its OK response carries the request's metadata block bit for
bit; the only other answer is LOST, for a 140-byte payload whose loss check passes. -/
def Obligations.PsegPassesTheMetadataThrough : Prop :=
  ∀ (len : Nat) (s : State), s.operand.length = 16 + len →
    ∃ b, exec (.pseg len) s = .next (s.after b (s.drawsOf (.pseg len))) ∧ (readResponse b).opc = 7 ∧
      ((readResponse b).rc = 0 → (readResponse b).data.take 16 = s.operand.take 16) ∧
      ((readResponse b).rc ≠ 0 → (readResponse b).rc = 1 ∧ (readResponse b).data = [] ∧ len = 140 ∧ s.LosesFrame)

/-- 70_reset_and_hazards.md R238: with ERR = 0 from PSEG, the payload delivered equals the input. -/
def Obligations.UnflaggedPayloadEqualsTheInput : Prop :=
  ∀ (len : Nat) (s t : State) (b : List Byte), exec (.pseg len) s = .next t → t.responses = s.responses ++ [b] →
    (readResponse b).rc = 0 → (readResponse b).err = 0 → (readResponse b).data = s.operand

/-- 30_encoding.md R67: the fields of the status word. -/
def Obligations.StatusWordLayout : Prop :=
  ∀ r : Response, r.status.toNat = r.opc.toNat * 2 ^ 28 + r.rc.code.toNat * 2 ^ 24 + r.flags.trunc.toNat * 2 ^ 18 +
    r.flags.malf.toNat * 2 ^ 17 + r.flags.err.toNat * 2 ^ 16
end

