-- ==== Sys2Proof/Laws/Bits.lean ====
section
/-! SUPPORT. Lengths and shapes of the bit and byte conversions; big-endian framing. -/

namespace Sys2Proof.Machine

@[simp] theorem byteBits_length (b : Byte) : (byteBits b).length = 8 := rfl

@[simp] theorem bytesToBits_nil : bytesToBits [] = [] := rfl

@[simp] theorem bytesToBits_cons (b : Byte) (B : List Byte) : bytesToBits (b :: B) = byteBits b ++ bytesToBits B := rfl

@[simp] theorem bytesToBits_append (A B : List Byte) : bytesToBits (A ++ B) = bytesToBits A ++ bytesToBits B := by
  simp [bytesToBits]

@[simp] theorem bytesToBits_length (B : List Byte) : (bytesToBits B).length = 8 * B.length := by
  induction B with
  | nil => rfl
  | cons b B ih => simp [ih]; omega

/-- The byte of a byte's own bits. -/
theorem byteOfBits_byteBits (b : Byte) :
    byteOfBits (b.getLsbD 7) (b.getLsbD 6) (b.getLsbD 5) (b.getLsbD 4) (b.getLsbD 3) (b.getLsbD 2) (b.getLsbD 1)
      (b.getLsbD 0) = b := by
  revert b; decide +kernel

/-- The bits of the byte of eight bits. -/
theorem byteBits_byteOfBits (b7 b6 b5 b4 b3 b2 b1 b0 : Bool) :
    byteBits (byteOfBits b7 b6 b5 b4 b3 b2 b1 b0) = [b7, b6, b5, b4, b3, b2, b1, b0] := by
  revert b7 b6 b5 b4 b3 b2 b1 b0; decide +kernel

/-- A bit sequence of fewer than eight bits gives no byte. -/
theorem bitsToBytes_short (s : Bits) (h : s.length < 8) : bitsToBytes s = [] := by
  unfold bitsToBytes
  split
  · simp at h; omega
  · rfl

/-- The first eight bits give the first byte. -/
theorem bitsToBytes_byteBits_append (b : Byte) (s : Bits) : bitsToBytes (byteBits b ++ s) = b :: bitsToBytes s := by
  show byteOfBits _ _ _ _ _ _ _ _ :: bitsToBytes s = b :: bitsToBytes s
  rw [byteOfBits_byteBits]

/-- A bit sequence of eight bits or more begins with the bits of a byte. -/
theorem exists_byteBits_append (s : Bits) (h : 8 ≤ s.length) : ∃ b rest, s = byteBits b ++ rest := by
  match s, h with
  | b7 :: b6 :: b5 :: b4 :: b3 :: b2 :: b1 :: b0 :: rest, _ =>
    exact ⟨byteOfBits b7 b6 b5 b4 b3 b2 b1 b0, rest, by rw [byteBits_byteOfBits]; rfl⟩

/-- Every bit sequence is the bits of some bytes, then fewer than eight bits; the bytes are what `bitsToBytes` gives. -/
theorem bits_eq_bytes_append_rest (s : Bits) :
    ∃ rest, s = bytesToBits (bitsToBytes s) ++ rest ∧ rest.length = s.length % 8 := by
  induction hn : s.length using Nat.strong_induction_on generalizing s with
  | _ n ih =>
    by_cases h : 8 ≤ s.length
    · obtain ⟨b, rest, rfl⟩ := exists_byteBits_append s h
      obtain ⟨last, e, hl⟩ := ih rest.length (by simp at hn; omega) rest rfl
      refine ⟨last, ?_, ?_⟩
      · rw [bitsToBytes_byteBits_append, bytesToBits_cons, List.append_assoc, ← e]
      · simp at hn; omega
    · exact ⟨s, by rw [bitsToBytes_short s (by omega)]; rfl, by omega⟩

@[simp] theorem bitsToBytes_length (s : Bits) : (bitsToBytes s).length = s.length / 8 := by
  obtain ⟨rest, e, hl⟩ := bits_eq_bytes_append_rest s
  have := congrArg List.length e
  simp at this
  omega

@[simp] theorem pack_length (s : Bits) : (pack s).length = (s.length + 7) / 8 := by
  simp [pack]; omega

theorem bitOperand_length (len : Nat) (D : List Byte) (h : D.length = (len + 7) / 8) : (bitOperand len D).length = len := by
  simp [bitOperand]; omega

@[simp] theorem beBytes_length (n v : Nat) : (beBytes n v).length = n := by
  induction n with
  | zero => rfl
  | succ n ih => simp [beBytes, ih]

theorem beValue_foldl (bs : List Byte) (acc : Nat) :
    bs.foldl (fun a b => a * 256 + b.toNat) acc = acc * 256 ^ bs.length + beValue bs := by
  induction bs generalizing acc with
  | nil => simp [beValue]
  | cons b bs ih =>
    have h0 : beValue (b :: bs) = bs.foldl (fun a b => a * 256 + b.toNat) (0 * 256 + b.toNat) := rfl
    rw [h0, List.foldl_cons, ih, ih, List.length_cons, pow_succ]
    ring

theorem beValue_cons (b : Byte) (bs : List Byte) : beValue (b :: bs) = b.toNat * 256 ^ bs.length + beValue bs := by
  rw [← beValue_foldl, ← Nat.zero_add b.toNat, ← Nat.zero_mul 256]
  rfl

@[simp] theorem beValue_nil : beValue [] = 0 := rfl

theorem beValue_lt (bs : List Byte) : beValue bs < 256 ^ bs.length := by
  induction bs with
  | nil => simp
  | cons b bs ih =>
    have hb := b.isLt
    rw [beValue_cons, List.length_cons, pow_succ]
    nlinarith [Nat.mul_le_mul_right (256 ^ bs.length) (show b.toNat + 1 ≤ 256 by omega)]

/-- Reading back what was framed. -/
@[simp] theorem beValue_beBytes (n v : Nat) : beValue (beBytes n v) = v % 256 ^ n := by
  induction n with
  | zero => simp [beBytes, Nat.mod_one]
  | succ n ih =>
    have e : (v / 256 ^ n) % 2 ^ 8 = v / 256 ^ n % 256 := rfl
    rw [beBytes, beValue_cons, ih, beBytes_length, BitVec.toNat_ofNat, e, pow_succ, Nat.mod_mul, Nat.mul_comm, Nat.add_comm]

/-- Framing what was read. -/
theorem beBytes_beValue (bs : List Byte) : beBytes bs.length (beValue bs) = bs := by
  suffices h : ∀ k, beBytes bs.length (k * 256 ^ bs.length + beValue bs) = bs by simpa using h 0
  induction bs with
  | nil => intro k; rfl
  | cons b bs ih =>
    intro k
    have hlt := beValue_lt bs
    have hb := b.isLt
    have e : k * 256 ^ (bs.length + 1) + (b.toNat * 256 ^ bs.length + beValue bs) =
        (k * 256 + b.toNat) * 256 ^ bs.length + beValue bs := by ring
    rw [List.length_cons, beBytes, beValue_cons, e, ih]
    congr 1
    apply BitVec.eq_of_toNat_eq
    rw [BitVec.toNat_ofNat, Nat.mul_comm, Nat.mul_add_div (by positivity), Nat.div_eq_of_lt hlt]
    omega

end Sys2Proof.Machine
end

