-- ==== Sys2Proof/Laws/Decode.lean ====
section
/-! SUPPORT. The decoder on a request written as a header and its data; the fields of a header as numbers. -/

namespace Sys2Proof

open Sys2Proof.Machine

theorem headerOpc_toNat (h : Word) : (headerOpc h).toNat = h.toNat / 2 ^ 28 := by
  have := h.isLt
  simp [headerOpc, BitVec.extractLsb'_toNat, Nat.shiftRight_eq_div_pow]
  omega

theorem headerRsv_toNat (h : Word) : (headerRsv h).toNat = h.toNat / 2 ^ 24 % 16 := by
  simp [headerRsv, BitVec.extractLsb'_toNat, Nat.shiftRight_eq_div_pow]

theorem headerLen_eq (h : Word) : headerLen h = h.toNat % 2 ^ 24 := by
  simp [headerLen, BitVec.extractLsb'_toNat]

theorem headerLen_lt (h : Word) : headerLen h < 2 ^ 24 := (h.extractLsb' 0 24).isLt

/-- The header of a request of at least four bytes, and what follows it. -/
theorem headerOf_append (v : Nat) (D : List Byte) (hv : v < 2 ^ 32) :
    headerOf (beBytes 4 v ++ D) = BitVec.ofNat 32 v := by
  have e : (beBytes 4 v ++ D).take 4 = beBytes 4 v := by
    rw [List.take_append_of_le_length (by simp), List.take_of_length_le (by simp)]
  rw [headerOf, e, beValue_beBytes, Nat.mod_eq_of_lt (by norm_num at *; omega)]

/-- Decoding a header word followed by data bytes. -/
theorem decode_append (v : Nat) (D : List Byte) (hv : v < 2 ^ 32) :
    decode (beBytes 4 v ++ D) = (decodeHeader (BitVec.ofNat 32 v)).map fun i => (i, D) := by
  have hl : ¬ (beBytes 4 v ++ D).length < 4 := by simp
  have hd : (beBytes 4 v ++ D).drop 4 = D := by simp
  rw [decode, if_neg hl, headerOf_append v D hv, hd]
  cases decodeHeader (BitVec.ofNat 32 v) <;> rfl

/-- A request of at least four bytes is its header's bytes and the rest. -/
theorem request_eq_header_append (request : List Byte) (h : 4 ≤ request.length) :
    request = beBytes 4 (headerOf request).toNat ++ request.drop 4 := by
  have hl : (request.take 4).length = 4 := by simp; omega
  have hv := beValue_lt (request.take 4)
  rw [hl] at hv
  have e := beBytes_beValue (request.take 4)
  rw [hl] at e
  rw [headerOf, BitVec.toNat_ofNat, Nat.mod_eq_of_lt (by norm_num at *; omega), e, List.take_append_drop]

/-- What a decoded request is. -/
theorem decode_ok_iff (request D : List Byte) (i : Instr) :
    decode request = .ok (i, D) ↔
      4 ≤ request.length ∧ decodeHeader (headerOf request) = .ok i ∧ D = request.drop 4 := by
  unfold decode
  by_cases h : request.length < 4
  · simp [h]
  · rw [if_neg h]
    cases decodeHeader (headerOf request) with
    | error r => simp
    | ok j => simp only [Except.ok.injEq, Prod.mk.injEq]; constructor
              · rintro ⟨rfl, rfl⟩; exact ⟨by omega, rfl, rfl⟩
              · rintro ⟨-, rfl, rfl⟩; exact ⟨rfl, rfl⟩

/-- A decoded command comes from the opcode map and the header's LEN. -/
theorem decodeHeader_ok_iff (h : Word) (i : Instr) :
    decodeHeader h = .ok i ↔ headerRsv h = 0#4 ∧ opcodeMap (headerOpc h) (headerLen h) = some i := by
  unfold decodeHeader
  by_cases hr : headerRsv h = 0#4
  · rw [if_pos hr]
    cases opcodeMap (headerOpc h) (headerLen h) <;> simp [hr]
  · simp [hr]

/-- The opcode map sends each opcode to its command. -/
theorem opcodeMap_eq_some (opc : BitVec 4) (len : Nat) (i : Instr) (h : opcodeMap opc len = some i) :
    i.opcode = opc ∧ i.len = len := by
  have hlt := opc.isLt
  obtain ⟨n, hn⟩ : ∃ n, opc.toNat = n := ⟨_, rfl⟩
  have ho : opc = BitVec.ofNat 4 n := by rw [← hn, BitVec.ofNat_toNat, BitVec.setWidth_eq]
  unfold opcodeMap at h
  rw [hn] at h hlt
  split at h
  all_goals first
    | (simp only [Option.some.injEq] at h; subst h; exact ⟨ho.symm, rfl⟩)
    | simp at h

/-- The opcode map reads back every command's own opcode. -/
@[simp] theorem opcodeMap_opcode (i : Instr) : opcodeMap i.opcode i.len = some i := by
  cases i <;> rfl

/-- A decoded command is well formed (30_encoding.md R72: LEN has no illegal value). -/
theorem decodeHeader_wellFormed (h : Word) (i : Instr) (hd : decodeHeader h = .ok i) : i.WellFormed := by
  rw [decodeHeader_ok_iff] at hd
  have hl := headerLen_lt h
  rw [← (opcodeMap_eq_some _ _ _ hd.2).2] at hl
  exact hl

theorem encodeHeader_toNat (i : Instr) (h : i.WellFormed) :
    (encodeHeader i).toNat = i.opcode.toNat * 2 ^ 28 + i.len := by
  have hl : i.len < 16777216 := h
  simp only [encodeHeader, BitVec.toNat_append, BitVec.toNat_ofNat, Nat.shiftLeft_eq]
  rw [Nat.zero_mod, Nat.or_zero, Nat.mod_eq_of_lt h]
  rw [← Nat.shiftLeft_eq (i.opcode.toNat * 2 ^ 4), ← Nat.shiftLeft_add_eq_or_of_lt h, Nat.shiftLeft_eq]
  ring

end Sys2Proof
end

