-- ==== Sys2Proof/Laws/State.lean ====
section
/-! SUPPORT. Each field of the state after each update of it, so that no later proof unfolds a record update. -/

namespace Sys2Proof.Machine

@[simp] theorem respond_fracBits (s : State) (r : Response) : (s.respond r).fracBits = s.fracBits := rfl
@[simp] theorem respond_cfgTR (s : State) (r : Response) : (s.respond r).cfgTR = s.cfgTR := rfl
@[simp] theorem respond_cfgTP (s : State) (r : Response) : (s.respond r).cfgTP = s.cfgTP := rfl
@[simp] theorem respond_source (s : State) (r : Response) : (s.respond r).source = s.source := rfl
@[simp] theorem respond_requests (s : State) (r : Response) : (s.respond r).requests = s.requests := rfl
@[simp] theorem respond_operand (s : State) (r : Response) : (s.respond r).operand = s.operand := rfl
@[simp] theorem respond_responses (s : State) (r : Response) :
    (s.respond r).responses = s.responses ++ [r.bytes] := rfl

@[simp] theorem after_fracBits (s : State) (b : List Byte) (n : Nat) : (s.after b n).fracBits = s.fracBits := rfl
@[simp] theorem after_cfgTR (s : State) (b : List Byte) (n : Nat) : (s.after b n).cfgTR = s.cfgTR := rfl
@[simp] theorem after_cfgTP (s : State) (b : List Byte) (n : Nat) : (s.after b n).cfgTP = s.cfgTP := rfl
@[simp] theorem after_source (s : State) (b : List Byte) (n : Nat) : (s.after b n).source = s.source.skip n := rfl
@[simp] theorem after_requests (s : State) (b : List Byte) (n : Nat) : (s.after b n).requests = s.requests := rfl
@[simp] theorem after_operand (s : State) (b : List Byte) (n : Nat) : (s.after b n).operand = [] := rfl
@[simp] theorem after_responses (s : State) (b : List Byte) (n : Nat) :
    (s.after b n).responses = s.responses ++ [b] := rfl

@[simp] theorem drawUnit_fracBits (s : State) : (drawUnit s).2.fracBits = s.fracBits := rfl
@[simp] theorem drawUnit_cfgTR (s : State) : (drawUnit s).2.cfgTR = s.cfgTR := rfl
@[simp] theorem drawUnit_cfgTP (s : State) : (drawUnit s).2.cfgTP = s.cfgTP := rfl
@[simp] theorem drawUnit_source (s : State) : (drawUnit s).2.source = s.source.advance := rfl
@[simp] theorem drawUnit_requests (s : State) : (drawUnit s).2.requests = s.requests := rfl
@[simp] theorem drawUnit_operand (s : State) : (drawUnit s).2.operand = s.operand := rfl
@[simp] theorem drawUnit_responses (s : State) : (drawUnit s).2.responses = s.responses := rfl

@[simp] theorem drawIndex_fracBits (n : Nat) (s : State) : (drawIndex n s).2.fracBits = s.fracBits := rfl
@[simp] theorem drawIndex_cfgTR (n : Nat) (s : State) : (drawIndex n s).2.cfgTR = s.cfgTR := rfl
@[simp] theorem drawIndex_cfgTP (n : Nat) (s : State) : (drawIndex n s).2.cfgTP = s.cfgTP := rfl
@[simp] theorem drawIndex_source (n : Nat) (s : State) : (drawIndex n s).2.source = s.source.advance := rfl
@[simp] theorem drawIndex_requests (n : Nat) (s : State) : (drawIndex n s).2.requests = s.requests := rfl
@[simp] theorem drawIndex_operand (n : Nat) (s : State) : (drawIndex n s).2.operand = s.operand := rfl
@[simp] theorem drawIndex_responses (n : Nat) (s : State) : (drawIndex n s).2.responses = s.responses := rfl

@[simp] theorem send_requests (s : State) (r : List Byte) : (s.send r).requests = s.requests ++ [r] := rfl
@[simp] theorem send_operand (s : State) (r : List Byte) : (s.send r).operand = s.operand := rfl
@[simp] theorem send_responses (s : State) (r : List Byte) : (s.send r).responses = s.responses := rfl
@[simp] theorem send_source (s : State) (r : List Byte) : (s.send r).source = s.source := rfl

@[simp] theorem leftover_nil : leftover [] = [] := rfl
@[simp] theorem leftover_cons (b : Byte) (rest : List Byte) : leftover (b :: rest) = [b :: rest] := rfl
@[simp] theorem leftover_flatten (rest : List Byte) : (leftover rest).flatten = rest := by cases rest <;> simp

@[simp] theorem sendStream_requests (s : State) (b : List Byte) :
    (s.sendStream b).requests = s.requests ++ (splitRequests b.length b).1 ++ leftover (splitRequests b.length b).2 := rfl
@[simp] theorem sendStream_fracBits (s : State) (b : List Byte) : (s.sendStream b).fracBits = s.fracBits := rfl
@[simp] theorem sendStream_cfgTR (s : State) (b : List Byte) : (s.sendStream b).cfgTR = s.cfgTR := rfl
@[simp] theorem sendStream_cfgTP (s : State) (b : List Byte) : (s.sendStream b).cfgTP = s.cfgTP := rfl
@[simp] theorem sendStream_source (s : State) (b : List Byte) : (s.sendStream b).source = s.source := rfl
@[simp] theorem sendStream_operand (s : State) (b : List Byte) : (s.sendStream b).operand = s.operand := rfl
@[simp] theorem sendStream_responses (s : State) (b : List Byte) : (s.sendStream b).responses = s.responses := rfl

@[simp] theorem withFetchWord_requests (s : State) (nbits w : Nat) :
    (s.withFetchWord nbits w).requests = tableRequest nbits w :: s.requests := rfl
@[simp] theorem withFetchWord_source (s : State) (nbits w : Nat) : (s.withFetchWord nbits w).source = s.source := rfl

@[simp] theorem advance_drawn (r : RandomSource) : r.advance.drawn = r.drawn + 1 := rfl
@[simp] theorem advance_seed (r : RandomSource) : r.advance.seed = r.seed := rfl
@[simp] theorem advance_answers (r : RandomSource) : r.advance.answers = r.answers.tail := rfl
@[simp] theorem skip_zero (r : RandomSource) : r.skip 0 = r := rfl
theorem skip_succ (n : Nat) (r : RandomSource) : r.skip (n + 1) = r.advance.skip n := rfl

end Sys2Proof.Machine
end

