-- ==== Sys2Proof/Laws/Ops.lean ====
section
/-! SUPPORT. What the shared operations can do: one lemma for the data-length check, one for the arrival of a request, one for
cutting a request off a stream, one for the threshold of a probability, one for the noise function, and every command's meaning as the one operation `perform` on its effect. -/

namespace Sys2Proof.Machine

/-- The answer a shared operation gives when the data length is nD. -/
theorem perform_ready (nD : Nat) (s : State) (effect : List Byte → State → Response × State) (h : s.operand.length = nD) :
    perform nD s effect =
      .next ((effect s.operand { s with operand := [] }).2.respond (effect s.operand { s with operand := [] }).1) :=
  if_pos h

/-- The answer when it is not: the request is refused. -/
theorem perform_refused (nD : Nat) (s : State) (effect : List Byte → State → Response × State) (h : s.operand.length ≠ nD) :
    perform nD s effect = .refused .wrongDataLength :=
  if_neg h

/-- What `perform` can do: a next state comes only from data of the right length, and it is the response joined to the effect's
state. -/
theorem perform_next (nD : Nat) (s t : State) (effect : List Byte → State → Response × State)
    (h : perform nD s effect = .next t) :
    s.operand.length = nD ∧
      t = (effect s.operand { s with operand := [] }).2.respond (effect s.operand { s with operand := [] }).1 := by
  by_cases hl : s.operand.length = nD
  · rw [perform_ready nD s effect hl] at h
    cases h; exact ⟨hl, rfl⟩
  · rw [perform_refused nD s effect hl] at h
    cases h

/-- The effect of each command on its operand data and the state that has given them up. -/
def effectOf : Instr → List Byte → State → Response × State
  | .ser len => fun B t =>
    ({ opc := 0x1#4, rc := .ok, flags := Flags.clear, rlen := 8 * len, data := pack (bytesToBits B) }, t)
  | .des len => fun D t =>
    ({ opc := 0x2#4, rc := .ok, flags := Flags.truncation (truncated (bitOperand len D)), rlen := len / 8,
       data := bitsToBytes (bitOperand len D) }, t)
  | .enc len => fun D t =>
    if len = 4 then
      ({ opc := 0x3#4, rc := .ok, flags := Flags.clear, rlen := 7, data := pack (enc4 (bitOperand len D)) }, t)
    else
      ({ opc := 0x3#4, rc := .ok, flags := Flags.malformed, rlen := 7, data := pack (List.replicate 7 false) }, t)
  | .dec len => fun D t =>
    ({ opc := 0x4#4, rc := .ok,
       flags := Flags.decoded (dec7 (bitOperand len D)).errorDetected (dec7 (bitOperand len D)).malformed,
       rlen := 4, data := pack (dec7 (bitOperand len D)).info }, t)
  | .syn len => fun D t =>
    if len = 7 then
      ({ opc := 0x5#4, rc := .ok, flags := Flags.error (syndromeError (syn7 (bitOperand len D))), rlen := 3,
         data := pack (syn7 (bitOperand len D)) }, t)
    else
      ({ opc := 0x5#4, rc := .ok, flags := Flags.malformed, rlen := 3, data := pack (List.replicate 3 false) }, t)
  | .noise len => fun D t =>
    if len = Config.encodedBitLength then
      (noiseResponse (noise (bitOperand len D) t).1, (noise (bitOperand len D) t).2)
    else
      ({ opc := 0x6#4, rc := .badlen, flags := Flags.clear, rlen := 0, data := [] }, t)
  | .pseg _ => fun D t =>
    (segmentResponse (processSegment (segmentOperand D) t).1, (processSegment (segmentOperand D) t).2)

/-- Every meaning is `perform` on its effect. -/
theorem exec_eq_perform (i : Instr) (s : State) : exec i s = perform (operandBytes i) s (effectOf i) := by
  cases i <;> rfl

/-- Every command completes on data of its length. -/
theorem exec_ready (i : Instr) (s : State) (h : s.operand.length = operandBytes i) :
    exec i s = .next ((effectOf i s.operand { s with operand := [] }).2.respond
      (effectOf i s.operand { s with operand := [] }).1) := by
  rw [exec_eq_perform, perform_ready _ _ _ h]

/-- What one step can do: nothing on an empty port, a command, the answer to an illegal header, or a refusal. -/
theorem step_cases (s : State) :
    (s.requests = [] ∧ step s = .next s) ∨
    (∃ request later i D, s.requests = request :: later ∧ decode request = .ok (i, D) ∧
      step s = exec i { s with requests := later, operand := D }) ∨
    (∃ request later h, s.requests = request :: later ∧
      (decode request = .error (.illegalOpcode h) ∨ decode request = .error (.reservedField h)) ∧
      step s = performIllegal h { s with requests := later, operand := request.drop 4 }) ∨
    (∃ request later, s.requests = request :: later ∧ decode request = .error .shortHeader ∧
      step s = .refused .shortHeader) := by
  cases hr : s.requests with
  | nil => exact .inl ⟨rfl, by simp [step, fetch, hr]⟩
  | cons request later =>
    cases hd : decode request with
    | ok p => exact .inr (.inl ⟨request, later, p.1, p.2, rfl, hd, by simp [step, fetch, hr, hd]⟩)
    | error e =>
      cases e with
      | shortHeader => exact .inr (.inr (.inr ⟨request, later, rfl, hd, by simp [step, fetch, hr, hd]⟩))
      | illegalOpcode h =>
        exact .inr (.inr (.inl ⟨request, later, h, rfl, .inl hd, by simp [step, fetch, hr, hd]⟩))
      | reservedField h =>
        exact .inr (.inr (.inl ⟨request, later, h, rfl, .inr hd, by simp [step, fetch, hr, hd]⟩))

/-- A run whose first step answers goes on from there. -/
theorem run_next (M : Host.Core) (k : Nat) (s t : M.State) (h : M.step s = .next t) : M.run (k + 1) s = M.run k t := by
  rw [Host.Core.run, h]

/-- The same of this machine, in its own names. -/
theorem core_run_next (k : Nat) (s t : State) (h : step s = .next t) :
    Host.Core.run Sys2Proof.core (k + 1) s = Host.Core.run Sys2Proof.core k t :=
  run_next Sys2Proof.core k s t h

/-- The loss check passes: one draw, no frame (42_noise.md R153 step 1). -/
theorem noise_lost (e : Bits) (s : State) (h : s.unitAt 0 ≤ s.cfgTR) :
    noise e s = (.lost, { s with source := s.source.skip 1 }) :=
  if_pos h

/-- Neither check passes: two draws, the frame as it is (42_noise.md R153 step 3). -/
theorem noise_kept (e : Bits) (s : State) (h : ¬ s.unitAt 0 ≤ s.cfgTR) (h' : ¬ s.unitAt 1 ≤ s.cfgTP) :
    noise e s = (.frame e, { s with source := s.source.skip 2 }) :=
  (if_neg h).trans (if_neg h')

/-- The error check passes: three draws, one bit flipped (42_noise.md R153 step 2). -/
theorem noise_flipped (e : Bits) (s : State) (h : ¬ s.unitAt 0 ≤ s.cfgTR) (h' : s.unitAt 1 ≤ s.cfgTP) :
    noise e s = (.frame (flipBit e (s.flipAt 2)), { s with source := s.source.skip 3 }) :=
  (if_neg h).trans (if_pos h')

/-- What the noise function does to the state: the source advances by one, two or three draws and nothing else changes. -/
theorem noise_state (e : Bits) (s : State) :
    (noise e s).2 = { s with source := s.source.skip s.noiseDraws } := by
  unfold State.noiseDraws
  by_cases h0 : s.unitAt 0 ≤ s.cfgTR
  · rw [noise_lost e s h0, if_pos h0]
  · by_cases h1 : s.unitAt 1 ≤ s.cfgTP
    · rw [noise_flipped e s h0 h1, if_neg h0, if_pos h1]
    · rw [noise_kept e s h0 h1, if_neg h0, if_neg h1]

/-- What the threshold of a probability is (10_state.md R23), in every ordered field with a floor. -/
theorem threshold_eq_floor {K : Type} [Field K] [LinearOrder K] [IsStrictOrderedRing K] [FloorRing K] (F : Nat) (X : K) (h : 0 ≤ X) :
    (threshold F X : Int) = ⌊X * 2 ^ F⌋ :=
  Int.toNat_of_nonneg (Int.floor_nonneg.2 (by positivity))

/-- The threshold that reset loads is that of its real probability. -/
theorem scaled_eq_threshold (X : Config.Probability) (F : Nat) : X.scaled F = threshold F X.val := by
  have := threshold_eq_floor F X.val X.inUnit.1
  rw [← X.scaled_eq F] at this
  exact (Int.ofNat_inj.1 this).symm

/-- A request conforms exactly when it holds its header and the data bytes the header asks for, and no more. -/
theorem conforming_iff (request : List Byte) :
    Conforming request ↔ 4 ≤ request.length ∧ request.length = 4 + headerDataBytes (headerOf request) := by
  unfold Conforming decode headerDataBytes
  split_ifs with h
  · simpa using fun h4 => absurd h4 (by omega)
  · cases hd : decodeHeader (headerOf request) with
    | ok i => simp; omega
    | error e =>
      cases e with
      | shortHeader => unfold decodeHeader at hd; split at hd <;> [split at hd; skip] <;> simp at hd
      | _ => simp; omega

/-- What cutting one request off a stream can do: a conforming request and the rest, or the stream begins
with no whole request. -/
theorem takeRequest_cases (stream : List Byte) :
    (∃ request rest, takeRequest stream = some (request, rest) ∧ Conforming request ∧ stream = request ++ rest) ∨
    (takeRequest stream = none ∧ ∀ n, ¬ Conforming (stream.take n)) := by
  by_cases h : 4 ≤ stream.length ∧ 4 + headerDataBytes (headerOf stream) ≤ stream.length
  · refine .inl ⟨_, _, if_pos h, ?_, (List.take_append_drop _ _).symm⟩
    have : headerOf (stream.take (4 + headerDataBytes (headerOf stream))) = headerOf stream := by
      simp [headerOf, List.take_take]
    rw [conforming_iff, this, List.length_take]
    omega
  · refine .inr ⟨if_neg h, fun n hc => h ?_⟩
    obtain ⟨h4, hl⟩ := (conforming_iff _).1 hc
    rw [List.length_take] at h4 hl
    have : headerOf (stream.take n) = headerOf stream := by
      rw [headerOf, headerOf, List.take_take, Nat.min_eq_left (by omega)]
    rw [this] at hl
    omega

end Sys2Proof.Machine
end

