-- ==== Sys2Proof/Laws/PerInstr.lean ====
section
/-! SUPPORT. The family Header: the fields of each command's encoded header (30_encoding.md rules R61, R64). -/

namespace Sys2Proof.Laws.Header

open Sys2Proof.Machine

/-- The header of a well-formed command holds its opcode, a zero reserved field and its LEN. -/
def Statement (i : Instr) : Prop :=
  i.WellFormed → headerOpc (encodeHeader i) = i.opcode ∧ headerRsv (encodeHeader i) = 0#4 ∧ headerLen (encodeHeader i) = i.len

/-- The fields of a header whose number is an opcode above LEN. -/
theorem fields_of_toNat (h : Word) (opc : BitVec 4) (len : Nat) (hl : len < 2 ^ 24)
    (e : h.toNat = opc.toNat * 2 ^ 28 + len) : headerOpc h = opc ∧ headerRsv h = 0#4 ∧ headerLen h = len := by
  refine ⟨BitVec.eq_of_toNat_eq ?_, BitVec.eq_of_toNat_eq ?_, ?_⟩
  · rw [headerOpc_toNat, e]; omega
  · rw [headerRsv_toNat, e]; simp; omega
  · rw [headerLen_eq, e]; omega

theorem ser (len : Nat) : Statement (.ser len) := fun h => fields_of_toNat _ _ _ h (encodeHeader_toNat _ h)
theorem des (len : Nat) : Statement (.des len) := fun h => fields_of_toNat _ _ _ h (encodeHeader_toNat _ h)
theorem enc (len : Nat) : Statement (.enc len) := fun h => fields_of_toNat _ _ _ h (encodeHeader_toNat _ h)
theorem dec (len : Nat) : Statement (.dec len) := fun h => fields_of_toNat _ _ _ h (encodeHeader_toNat _ h)
theorem syn (len : Nat) : Statement (.syn len) := fun h => fields_of_toNat _ _ _ h (encodeHeader_toNat _ h)
theorem noise (len : Nat) : Statement (.noise len) := fun h => fields_of_toNat _ _ _ h (encodeHeader_toNat _ h)
theorem pseg (len : Nat) : Statement (.pseg len) := fun h => fields_of_toNat _ _ _ h (encodeHeader_toNat _ h)

end Sys2Proof.Laws.Header
end

