-- ==== Sys2Proof/Tests/Slice0.lean ====
section
/-! SUPPORT. The model's own tests: ill-formed terms refused, words written out from the spec's encodings, the spec's vectors (95_test_vectors.md),
and for every statement with hypotheses a state and operands that meet them. -/

namespace Sys2Proof.Tests

open Sys2Proof Sys2Proof.Machine Sys2Proof.Claims

/-- The configuration of 95_test_vectors.md: F = 8, R = 0.25, P = 0.5, so T_R = 64 and T_P = 128; a draw stream, and the requests sent. -/
def testState (answers : List Nat) (requests : List (List Byte)) : State where
  fracBits := 8
  cfgTR := 64
  cfgTP := 128
  source := { seed := 0, drawn := 0, answers := answers }
  requests := requests
  operand := []
  responses := []

/-- A state with the operand of a command in progress. -/
def busy (answers : List Nat) (D : List Byte) : State := { testState answers [] with operand := D }

/-- One step on one request: the response and the number of draws taken. -/
def answer (answers : List Nat) (request : List Byte) : Option (List (List Byte) × Nat) :=
  match step (testState answers [request]) with
  | .next t => some (t.responses, t.source.drawn)
  | .fault _ => none
  | .refused _ => none

/-- The metadata block of ts=1, tot=1, seg=1 (30_encoding.md R76). -/
def metadata111 : List Byte := [0, 0, 0, 0, 0, 0, 0, 1, 0, 0, 0, 1, 0, 0, 0, 1]

/-- The payload `48 69 00*138`. -/
def payloadHi : List Byte := [0x48, 0x69] ++ List.replicate 138 0x00

/-! ## WellFormed -/

/-- LEN does not fit 24 bits (R62). -/
theorem test_illFormed_len : ¬ (Instr.ser 16777216).WellFormed := by decide
/-- The largest LEN does (R72). -/
theorem test_wellFormed_len : (Instr.pseg 16777215).WellFormed := by decide

/-! ## Decode: words written out bit by bit from spec/opcode_table.json -/

theorem test_decode_ser : decodeTableWord 32 0b00010000000000000000000000000010 = some (.ser 2) := by decide
theorem test_decode_des : decodeTableWord 32 0b00100000000000000000000000001100 = some (.des 12) := by decide
theorem test_decode_enc : decodeTableWord 32 0b00110000000000000000000000000100 = some (.enc 4) := by decide
theorem test_decode_dec : decodeTableWord 32 0b01000000000000000000000000000111 = some (.dec 7) := by decide
theorem test_decode_syn : decodeTableWord 32 0b01010000000000000000000000000111 = some (.syn 7) := by decide
theorem test_decode_noise : decodeTableWord 32 0b01100000000000000000011110101000 = some (.noise 1960) := by decide +kernel
theorem test_decode_pseg : decodeTableWord 32 0b01110000000000000000000010001100 = some (.pseg 140) := by decide +kernel
/-- V-ILL-3, V-ILL-4. -/
theorem test_decode_illegal : decodeHeader 0xF0FFFFFF = .error (.illegalOpcode 0xF0FFFFFF) ∧
    decodeHeader 0x71000000 = .error (.reservedField 0x71000000) := by decide
/-- The step runs the word placed by withFetchWord, from reset. -/
theorem test_withFetchWord : step (State.reset.withFetchWord 32 0x50000007) = exec (.syn 7) { State.reset with operand := [0x00] } := by
  rfl

/-! ## One step of each command, on the spec's vectors -/

/-- V-SER-2. -/
theorem test_ser : answer [] [0x10, 0, 0, 2, 0xA5, 0x0F] = some ([[0x10, 0, 0, 0, 0, 0, 0, 16, 0xA5, 0x0F]], 0) := by decide
/-- V-DES-5: dropped operand bits and pad bits. -/
theorem test_des_truncates : answer [] [0x20, 0, 0, 12, 0xA5, 0xFF] = some ([[0x20, 4, 0, 0, 0, 0, 0, 1, 0xA5]], 0) := by decide
/-- V-ENC-17: pad bits ignored. -/
theorem test_enc : answer [] [0x30, 0, 0, 4, 0xBF] = some ([[0x30, 0, 0, 0, 0, 0, 0, 7, 0xB2]], 0) := by decide
/-- V-ENC-20. -/
theorem test_enc_malformed : answer [] [0x30, 0, 0, 5, 0xB0] = some ([[0x30, 3, 0, 0, 0, 0, 0, 7, 0x00]], 0) := by decide
/-- V-DEC-17: a wrong information bit is returned uncorrected. -/
theorem test_dec_uncorrected : answer [] [0x40, 0, 0, 7, 0x32] = some ([[0x40, 1, 0, 0, 0, 0, 0, 4, 0x30]], 0) := by decide
/-- V-DEC-32. -/
theorem test_dec_malformed : answer [] [0x40, 0, 0, 0] = some ([[0x40, 3, 0, 0, 0, 0, 0, 4, 0x00]], 0) := by decide
/-- V-DEC-18, the SYN column. -/
theorem test_syn : answer [] [0x50, 0, 0, 7, 0xF2] = some ([[0x50, 1, 0, 0, 0, 0, 0, 3, 0xC0]], 0) := by decide
/-- V-SYN-4. -/
theorem test_syn_malformed : answer [] [0x50, 0, 0, 6, 0xB0] = some ([[0x50, 3, 0, 0, 0, 0, 0, 3, 0x00]], 0) := by decide
/-- V-NOI-5: U2 = T_P flips, K = 1000 is bit 7 of byte 125. -/
theorem test_noise_flips : answer [255, 128, 1000] ([0x60, 0, 0x07, 0xA8] ++ List.replicate 245 0x00) =
    some ([[0x60, 0, 0, 0, 0, 0, 0x07, 0xA8] ++ List.replicate 125 0x00 ++ [0x80] ++ List.replicate 119 0x00], 3) := by
  decide +kernel
/-- V-NOI-14. -/
theorem test_noise_badlen : answer [255] ([0x60, 0, 0x07, 0xA7] ++ List.replicate 245 0x00) =
    some ([[0x62, 0, 0, 0, 0, 0, 0, 0]], 0) := by decide +kernel
/-- V-PSEG-3. -/
theorem test_pseg_flips : answer [200, 10, 7] ([0x70, 0, 0, 0x8C] ++ metadata111 ++ payloadHi) =
    some ([[0x70, 1, 0, 0, 0, 0, 0, 0x8C] ++ metadata111 ++ [0x40, 0x69] ++ List.replicate 138 0x00], 3) := by decide +kernel
/-- V-PSEG-9: U1 = T_R is lost. -/
theorem test_pseg_lost : answer [64] ([0x70, 0, 0, 0x8C] ++ metadata111 ++ payloadHi) =
    some ([[0x71, 0, 0, 0, 0, 0, 0, 0]], 1) := by decide +kernel
/-- V-ILL-4. -/
theorem test_illegal : answer [] [0x71, 0, 0, 0] = some ([[0x7F, 0, 0, 0, 0, 0, 0, 0]], 0) := by decide
/-- A request whose data are longer than nD is refused (R236). -/
theorem test_wrongDataLength : step (testState [] [[0x30, 0, 0, 4, 0xB0, 0x00]]) = .refused .wrongDataLength := by rfl
/-- 43_channel.md R170: the frame of HI (95_test_vectors.md 2.4). -/
theorem test_frame : pack (encodeFrame (bytesToBits payloadHi)) = [0x4D, 0x1D, 0x9C, 0xC0] ++ List.replicate 241 0x00 := by
  decide +kernel
/-- 10_state.md R23: R = 0.25 and P = 0.5 at F = 8. -/
theorem test_thresholds : threshold 8 (1 / 4 : ℚ) = 64 ∧ threshold 8 (1 / 2 : ℚ) = 128 ∧ threshold 8 (1 / 3 : ℚ) = 85 := by decide +kernel
/-- 10_state.md R23: an irrational probability has its threshold, floor(4 / sqrt 2) = 2. -/
theorem test_threshold_irrational : threshold 2 (1 / Real.sqrt 2) = 2 := by
  have h : Real.sqrt 2 * Real.sqrt 2 = 2 := Real.mul_self_sqrt (by norm_num)
  have hp : 0 < Real.sqrt 2 := by positivity
  unfold threshold
  rw [show ⌊1 / Real.sqrt 2 * 2 ^ 2⌋ = 2 from Int.floor_eq_iff.2 ⟨?_, ?_⟩]
  · rfl
  · rw [div_mul_eq_mul_div, le_div_iff₀ hp]; push_cast; nlinarith
  · rw [div_mul_eq_mul_div, div_lt_iff₀ hp]; push_cast; nlinarith
/-- R232. -/
theorem test_construct_refused : (match construct 8 (2 : ℚ) 0 0 with | .refused r => r == .badConstruction | _ => false) = true := by
  decide +kernel
/-- R74, R76: two lines of text. -/
theorem test_assemble_text : assembleText "DES h'A5 FF'/12" = some [0x20, 0, 0, 12, 0xA5, 0xFF] ∧
    assembleText "PSEG ts=-1, tot=3, seg=2, payload=h'00*2 0F'" =
      some ([0x70, 0, 0, 3] ++ List.replicate 8 0xFF ++ [0, 0, 0, 3, 0, 0, 0, 2, 0x00, 0x00, 0x0F]) := by decide +kernel
/-- R63: two requests in one stream, and the bytes of a third that is not whole. -/
theorem test_split : splitRequests 9 [0x30, 0, 0, 4, 0xB0, 0, 0, 0, 0, 0x20, 0] =
    ([[0x30, 0, 0, 4, 0xB0], [0, 0, 0, 0]], [0x20, 0]) := by decide

/-- R236, log 15: an incomplete request at a stream's end is not lost, and the step refuses it. -/
theorem test_sendStream_incomplete : ((testState [] []).sendStream [0, 0, 0, 0, 0x30, 0, 0, 4]).requests = [[0, 0, 0, 0], [0x30, 0, 0, 4]] ∧
    step ((testState [] []).sendStream [0x30, 0, 0, 4]) = .refused .wrongDataLength := ⟨by decide, rfl⟩

/-! ## Witnesses: each meets the hypotheses of the statement it is named after, clause by clause -/

theorem witness_SpecExamplesAssembleAndDecode : (List.replicate 245 (0x00 : Byte)).length = 245 ∧
    (testState [] [[0x80, 0x00, 0x00, 0x00]]).requests = [0x80, 0x00, 0x00, 0x00] :: [] := by decide +kernel
theorem witness_DecodeOfEncodeIsTheCommand : (Instr.ser 16777215).WellFormed ∧ (Instr.pseg 0).WellFormed := by decide
theorem witness_EveryHeaderIsACommandOrIllegal :
    (IllegalHeader 0x00000000 ∧ IllegalHeader 0x80000000 ∧ IllegalHeader 0x71000000) ∧
    ¬ IllegalHeader 0x10000000 ∧ ¬ IllegalHeader 0x70FFFFFF := by
  unfold IllegalHeader; decide
theorem witness_EveryLineIsOneConformingRequest :
    assemble (.ser []) = some [0x10, 0, 0, 0] ∧ assemble (.enc (.hex [0xBF] 4)) = some [0x30, 0, 0, 4, 0xBF] := by decide
theorem witness_RequestsAreToldApart : (Instr.enc 4).WellFormed ∧ IllegalHeader 0x00000000 ∧
    Conforming [0x30, 0, 0, 4, 0xB0] ∧ Conforming [0, 0, 0, 0] :=
  ⟨by decide, Or.inl rfl, rfl, rfl⟩
theorem witness_StreamBytesAreNeitherLostNorInvented :
    ((testState [] []).sendStream [0, 0, 0, 0, 0x30]).requests = [[0, 0, 0, 0]] ++ [[0x30]] ∧
    ((testState [] []).sendStream [0, 0, 0, 0]).requests = [[0, 0, 0, 0]] ++ [] ∧
    ((testState [] []).sendStream []).requests = [] := by decide
theorem witness_StepRunsTheDecodedCommand : (testState [] [[0x30, 0, 0, 4, 0xB0]]).requests = [0x30, 0, 0, 4, 0xB0] :: [] ∧
    decode [0x30, 0, 0, 4, 0xB0] = .ok (.enc 4, [0xB0]) := ⟨rfl, rfl⟩
theorem witness_IllegalHeaderIsAnsweredIllegal : IllegalHeader 0x80000000 ∧ ¬ IllegalHeader 0x70FFFFFF ∧
    (testState [] [beBytes 4 (0x80000000 : Word).toNat]).requests = beBytes 4 (0x80000000 : Word).toNat :: [] :=
  ⟨by unfold IllegalHeader; decide, by unfold IllegalHeader; decide, rfl⟩
theorem witness_StepCompletesExactlyOnConformingRequests :
    (testState [] [[0x30, 0, 0, 4, 0xB0]]).requests = [0x30, 0, 0, 4, 0xB0] :: [] ∧ Conforming [0x30, 0, 0, 4, 0xB0] ∧
    ¬ Conforming [0x30, 0, 0, 4] ∧ ¬ Conforming [0x30, 0, 0] ∧ ¬ Conforming [0x80, 0, 0, 0, 0xB0] :=
  ⟨rfl, rfl, (by decide : ¬ ([] : List Byte).length = operandBytes (.enc 4)), not_false,
    (by decide : ¬ ([0x80, 0, 0, 0, 0xB0] : List Byte).length = 4)⟩
theorem witness_IdleInstanceHoldsItsState : (testState [] []).requests = [] := rfl
theorem witness_EveryRequestGetsOneResponse : (testState [] [[0, 0, 0, 0]]).requests = [0, 0, 0, 0] :: [] ∧
    ∃ t, step (testState [] [[0, 0, 0, 0]]) = .next t := ⟨rfl, _, rfl⟩
theorem witness_RunPerformsAllRequests :
    ∀ request ∈ (testState [] [[0x30, 0, 0, 4, 0xB0], [0, 0, 0, 0]]).requests, Conforming request := by
  intro r hr
  simp only [testState, List.mem_cons, List.not_mem_nil, or_false] at hr
  rcases hr with rfl | rfl
  · exact rfl
  · exact rfl
theorem witness_StepKeepsTheStateLegal : (testState [] [[0, 0, 0, 0]]).Legal ∧ ∃ t, step (testState [] [[0, 0, 0, 0]]) = .next t :=
  ⟨⟨by decide, by decide, by decide, rfl, by simp [testState]⟩, _, rfl⟩
theorem witness_ConfigurationIsSetOnceAtConstruction :
    (∃ s, construct 8 (1 / Real.sqrt 2) 1 0 = .next s) ∧ (∃ s, construct 8 (1 / 4 : ℚ) 1 0 = .next s) ∧
    step (testState [] []) = .next (testState [] []) :=
  ⟨⟨_, if_pos ⟨by decide, by positivity, div_le_one_of_le₀ (Real.one_le_sqrt.2 (by norm_num)) (by positivity), by norm_num, le_rfl⟩⟩,
    ⟨_, if_pos (by decide +kernel)⟩, rfl⟩
theorem witness_ThresholdTestIsExact : (0 ≤ 1 / Real.sqrt 2 ∧ 1 / Real.sqrt 2 ≤ 1) ∧ ((0 : ℝ) ≤ 1 ∧ (1 : ℝ) ≤ 1) ∧ 255 < 2 ^ 8 ∧
    256 ≤ 2 ^ 8 :=
  ⟨⟨by positivity, div_le_one_of_le₀ (Real.one_le_sqrt.2 (by norm_num)) (by positivity)⟩, by norm_num, by norm_num, le_rfl⟩
theorem witness_InstancesAreIndependent : (0 ≠ 1) ∧
    (∃ a, stepInstance [testState [] [[0, 0, 0, 0]], testState [] []] 0 = .next a) ∧
    ∃ b, stepInstance [testState [] [[0, 0, 0, 0]], testState [] []] 1 = .next b := ⟨by decide, ⟨_, rfl⟩, _, rfl⟩
theorem witness_BytesToBitsIsMostSignificantFirst : ([0xA5, 0x0F] : List Byte)[1]? = some 0x0F ∧ 7 < 8 := by decide
theorem witness_BitsToBytesTakesGroupsOfEight : 0 < (List.replicate 12 true).length / 8 := by decide
theorem witness_CodecRoundTrip : (List.replicate 16 true).length % 8 = 0 ∧ ([] : Bits).length % 8 = 0 := by decide
theorem witness_BitPackingIsMostSignificantFirst : ([0xB2] : List Byte).length = (7 + 7) / 8 ∧ 6 < 7 ∧
    ([0xB2] : List Byte)[6 / 8]? = some 0xB2 := by decide
theorem witness_SerAnswersTheBitsOfItsBytes : 2 < 2 ^ 24 ∧ (busy [] [0xA5, 0x0F]).operand.length = 2 ∧
    0 < 2 ^ 24 ∧ (busy [] []).operand.length = 0 := by decide
theorem witness_DesAnswersTheCompleteBytes : (busy [] [0xA5, 0xFF]).operand.length = (12 + 7) / 8 ∧
    (busy [] [0xA5, 0xFF]).operand.length = (16 + 7) / 8 ∧ (busy [] []).operand.length = (0 + 7) / 8 := by decide
theorem witness_EncodingTable : 15 < 16 ∧ 15 ≠ 0 := by decide
theorem witness_TheCodeIsNotCyclic : 15 < 16 := by decide
theorem witness_SyndromeOfSingleErrors : 15 < 16 ∧ 127 < 128 := by decide
theorem witness_LawsOfTheCode : weight (wordBits 7 0b1100001) = 3 ∧ (5 < 7 ∧ 6 < 7 ∧ (5 : Nat) ≠ 6) := by decide
theorem witness_EncAnswersTheCodeword : (busy [] [0xBF]).operand.length = (4 + 7) / 8 ∧
    (busy [] [0xB0]).operand.length = (5 + 7) / 8 ∧ (busy [] []).operand.length = (0 + 7) / 8 := by decide
theorem witness_DecAnswersTheUncorrectedBits : (busy [] [0xB2]).operand.length = (7 + 7) / 8 ∧
    (busy [] [0xB2]).operand.length = (8 + 7) / 8 := by decide
theorem witness_SynAnswersTheSyndrome : (busy [] [0xB3]).operand.length = (7 + 7) / 8 ∧
    (busy [] [0xB0]).operand.length = (6 + 7) / 8 := by decide
theorem witness_DrawsAreAnyValueInRange : 0 < 1960 ∧ 255 < 2 ^ (testState [] []).fracBits ∧ 1959 < 1960 := by decide
theorem witness_DrawOrderAndCountAreExact : (testState [] [[0, 0, 0, 0]]).requests = [0, 0, 0, 0] :: [] ∧
    decode [0, 0, 0, 0] = .error (.illegalOpcode 0) ∧ (∃ t, step (testState [] [[0, 0, 0, 0]]) = .next t) ∧
    decode [0x10, 0, 0, 0] = .ok (.ser 0, []) ∧ ∃ t, step (testState [] [[0x10, 0, 0, 0]]) = .next t :=
  ⟨rfl, rfl, ⟨_, rfl⟩, rfl, _, rfl⟩
theorem witness_ThresholdCornerCases : (List.replicate 1960 false).length = 1960 ∧
    ({ testState [] [] with cfgTR := 256, cfgTP := 256 } : State).cfgTR = 2 ^ (testState [] []).fracBits ∧
    (testState [64] []).unitAt 0 = 64 ∧ (testState [65] []).unitAt 0 = 64 + 1 ∧
    (noise [] { testState [1, 0] [] with cfgTR := 0, cfgTP := 0 }).1 = .frame (flipBit [] (Config.drawAnswer 0 2 % 1960)) := by
  refine ⟨List.length_replicate, rfl, rfl, rfl, rfl⟩
theorem witness_NoiseAnswersTheFrameWithAtMostOneFlip : 1960 < 2 ^ 24 ∧
    (busy [255, 0, 4] (List.replicate 245 0x00)).operand.length = (1960 + 7) / 8 ∧
    (busy [] (List.replicate 246 0x00)).operand.length = (1961 + 7) / 8 := by decide +kernel
theorem witness_PureCommandsReadNoState : (∀ len, Instr.ser 2 ≠ .noise len ∧ Instr.ser 2 ≠ .pseg len) ∧
    (busy [] [0xA5, 0x0F]).operand = (busy [7] [0xA5, 0x0F]).operand ∧
    (busy [] [0xA5, 0x0F]).operand.length = operandBytes (.ser 2) := ⟨fun _ => ⟨by simp, by simp⟩, rfl, rfl⟩
theorem witness_CommandsSeeOnlyOperandConfigurationAndDraws :
    (busy [200, 10, 7] [0x00]).operand = (busy [200, 10, 7, 1] [0x00]).operand ∧
    (∀ n < 3, ((busy [200, 10, 7] [0x00]).source.skip n).next = ((busy [200, 10, 7, 1] [0x00]).source.skip n).next) ∧
    (busy [200, 10, 7] [0x00]).operand.length = operandBytes (.noise 8) := by decide
theorem witness_MetadataBlockIsBigEndian : metadata111.length = 16 := by decide
theorem witness_FrameIsTheCodewordsInBlockOrder : (List.replicate 1120 true).length = 1120 ∧ 279 < 280 ∧ 6 < 7 :=
  ⟨List.length_replicate, by decide⟩
theorem witness_BlocksCarryNibbles : payloadHi.length = 140 ∧ payloadHi[1]? = some 0x69 ∧ (1956 < 1960 ∧ 1956 % 7 < 4) ∧
    slice (bytesToBits payloadHi) (4 * 3) 4 = [true, false, false, true] := by decide +kernel
theorem witness_BlocksAreIndependent : (List.replicate 1120 true).length = 1120 ∧ (List.replicate 1960 true).length = 1960 ∧ 279 < 280 :=
  ⟨List.length_replicate, List.length_replicate, by decide⟩
theorem witness_PsegSizeMismatchIsDeliveredEmpty : 139 ≠ 140 ∧ (busy [] (metadata111 ++ List.replicate 139 0x00)).operand.length = 16 + 139 ∧
    (busy [] metadata111).operand.length = 16 + 0 := by decide +kernel
theorem witness_PsegLostFrameIsAnsweredLost : (busy [64] (metadata111 ++ payloadHi)).operand.length = 156 ∧
    (busy [64] (metadata111 ++ payloadHi)).LosesFrame := by unfold State.LosesFrame; decide +kernel
theorem witness_PsegWithoutNoiseDeliversThePayload : (busy [65, 129] (metadata111 ++ payloadHi)).operand.length = 156 ∧
    ¬ (busy [65, 129] (metadata111 ++ payloadHi)).LosesFrame ∧ ¬ (busy [65, 129] (metadata111 ++ payloadHi)).FlipsBit := by
  unfold State.LosesFrame State.FlipsBit; decide +kernel
theorem witness_PsegFlipLandsInOnePayloadBit : (busy [65, 128, 11] (metadata111 ++ payloadHi)).operand.length = 156 ∧
    ¬ (busy [65, 128, 11] (metadata111 ++ payloadHi)).LosesFrame ∧ (busy [65, 128, 11] (metadata111 ++ payloadHi)).FlipsBit := by
  unfold State.LosesFrame State.FlipsBit; decide +kernel
theorem witness_ErrorFlagMeansAFlip : payloadHi.length = 140 ∧
    (∃ out, (processSegment { payload := payloadHi, metadata := readMetadata metadata111, isChannelError := false }
      (testState [255, 129] [])).1 = .delivered out) ∧ (List.replicate 1120 true).length = 1120 ∧ 1959 < 1960 ∧ 279 < 280 :=
  ⟨by decide +kernel, ⟨⟨payloadHi, readMetadata metadata111, false⟩, by decide +kernel⟩, List.length_replicate, by decide⟩
theorem witness_PsegPassesTheMetadataThrough : (busy [64] (metadata111 ++ payloadHi)).operand.length = 16 + 140 ∧
    (busy [] metadata111).operand.length = 16 + 0 := by decide +kernel
theorem witness_UnflaggedPayloadEqualsTheInput :
    (match exec (.pseg 140) (busy [65, 129] (metadata111 ++ payloadHi)) with
      | .next t => t.responses == [wire 0x70000000 140 (metadata111 ++ payloadHi)]
      | _ => false) = true ∧
    (readResponse (wire 0x70000000 140 (metadata111 ++ payloadHi))).rc = 0 ∧
    (readResponse (wire 0x70000000 140 (metadata111 ++ payloadHi))).err = 0 := by decide +kernel

end Sys2Proof.Tests
end

/-! PROOFS. What construction loads (70_reset_and_hazards.md R230, R232), what each command and each step does to the state, and that no
step changes the configuration (10_state.md R25). -/

namespace Sys2Proof.Machine

/-! ### Construction -/

/-- When construction makes an instance, and which one. -/
theorem construct_eq_next_iff {K : Type} [Field K] [LinearOrder K] [FloorRing K] {F : Nat} {R P : K} {seed : Nat} {s : State} :
    construct F R P seed = .next s ↔
      (1 ≤ F ∧ 0 ≤ R ∧ R ≤ 1 ∧ 0 ≤ P ∧ P ≤ 1) ∧ s = State.constructed F (threshold F R) (threshold F P) seed := by
  unfold construct
  split_ifs with hargs
  · simp [hargs, eq_comm]
  · simp [hargs]

/-- Construction loads the floors of R23. -/
theorem construct_next_loads_floors {F seed : Nat} {R P : ℝ} {s : State} (h : construct F R P seed = .next s) :
    (s.cfgTR : Int) = ⌊R * 2 ^ F⌋ ∧ (s.cfgTP : Int) = ⌊P * 2 ^ F⌋ ∧ s.fracBits = F ∧ s.source.drawn = 0 := by
  obtain ⟨⟨-, hR, -, hP, -⟩, rfl⟩ := construct_eq_next_iff.1 h
  exact ⟨threshold_eq_floor F R hR, threshold_eq_floor F P hP, rfl, rfl⟩

/-- The threshold of a rational number is that of the same real number (log 3). -/
theorem threshold_ratCast (F : Nat) (X : ℚ) : threshold F (X : ℝ) = threshold F X := by
  have hfloor : ⌊(X : ℝ) * 2 ^ F⌋ = ⌊X * 2 ^ F⌋ := by
    rw [← Rat.floor_cast (α := ℝ) (X * 2 ^ F)]
    push_cast
    rfl
  simp only [threshold, hfloor]

/-- Construction from rational numbers is construction from the same real numbers (log 3). -/
theorem construct_ratCast (F seed : Nat) (R P : ℚ) : construct F (R : ℝ) (P : ℝ) seed = construct F R P seed := by
  have hle (X : ℚ) : (X : ℝ) ≤ 1 ↔ X ≤ 1 := by norm_cast
  simp only [construct, threshold_ratCast, Rat.cast_nonneg, hle]

/-! ### What a command and a step do to the state -/

/-- PSEG's pipeline advances the source by the draws of its noise step, which only a payload of 140 bytes reaches (R171), and changes
nothing else. -/
theorem processSegment_state (seg : Segment) (s : State) :
    (processSegment seg s).2 =
      { s with source := s.source.skip (if seg.payload.length = 140 then s.noiseDraws else 0) } := by
  unfold processSegment Config.fixedPayloadSize Config.payloadBitLength
  by_cases h140 : seg.payload.length = 140
  · have hbits : (bytesToBits seg.payload).length = 1120 := by rw [bytesToBits_length, h140]
    rw [if_pos h140, if_pos hbits, if_pos h140, noise_state]
  · rw [if_neg h140, if_neg h140, skip_zero]

/-- A command's effect advances the source by the command's draws (42_noise.md R152) and changes nothing else. -/
theorem effectOf_state (i : Instr) (D : List Byte) (s : State) (hD : D.length = operandBytes i) :
    (effectOf i D s).2 = { s with source := s.source.skip (s.drawsOf i) } := by
  cases i with
  | ser | des | dec => rfl
  | enc | syn => simp only [effectOf]; split_ifs <;> rfl
  | noise len =>
    simp only [effectOf, State.drawsOf]
    by_cases hlen : len = 1960
    · have hcode : len = Config.encodedBitLength := hlen
      rw [if_pos hcode, if_pos hlen, noise_state]
    · have hcode : len ≠ Config.encodedBitLength := hlen
      rw [if_neg hcode, if_neg hlen, skip_zero]
  | pseg len =>
    have hlen : (segmentOperand D).payload.length = len := by
      simp only [operandBytes] at hD
      simp only [segmentOperand, List.length_drop]
      omega
    simp only [effectOf, State.drawsOf, processSegment_state, hlen]

/-- What a command can do: its data has the length its header asks for, and the state answers and takes its draws. -/
theorem exec_next {i : Instr} {s t : State} (h : exec i s = .next t) :
    s.operand.length = operandBytes i ∧
      t = s.after (effectOf i s.operand { s with operand := [] }).1.bytes (s.drawsOf i) := by
  rw [exec_eq_perform] at h
  obtain ⟨hD, rfl⟩ := perform_next _ _ _ _ h
  refine ⟨hD, ?_⟩
  rw [effectOf_state i _ _ hD]
  cases i <;> rfl

/-- What the answer to an illegal header can do: no data stands behind the header, and the state answers without a draw. -/
theorem performIllegal_next {h : Word} {s t : State} (hnext : performIllegal h s = .next t) :
    s.operand = [] ∧ t = s.after (illegalResponse h).bytes 0 := by
  obtain ⟨hD, rfl⟩ := perform_next _ _ _ _ hnext
  exact ⟨List.length_eq_zero_iff.1 hD, rfl⟩

/-- What a step that completes can do: nothing on an empty port, or one request taken, one response returned and some draws. -/
theorem step_next {s t : State} (h : step s = .next t) :
    (s.requests = [] ∧ t = s) ∨
    ∃ (request : List Byte) (later : List (List Byte)) (r : Response) (draws : Nat),
      s.requests = request :: later ∧ t = { s with requests := later }.after r.bytes draws := by
  obtain ⟨hidle, hs⟩ | ⟨request, later, i, D, hreq, -, hs⟩ | ⟨request, later, hd, hreq, -, hs⟩ | ⟨-, -, -, -, hs⟩ := step_cases s
  · cases hs.symm.trans h
    exact .inl ⟨hidle, rfl⟩
  · obtain ⟨-, rfl⟩ := exec_next (hs.symm.trans h)
    exact .inr ⟨request, later, _, _, hreq, rfl⟩
  · obtain ⟨-, rfl⟩ := performIllegal_next (hs.symm.trans h)
    exact .inr ⟨request, later, _, _, hreq, rfl⟩
  · cases hs.symm.trans h

/-- No step changes the configuration (R25). -/
theorem step_keeps_configuration {s t : State} (h : step s = .next t) :
    t.cfgTR = s.cfgTR ∧ t.cfgTP = s.cfgTP ∧ t.fracBits = s.fracBits := by
  obtain ⟨-, rfl⟩ | ⟨_, _, _, _, -, rfl⟩ := step_next h
  · exact ⟨rfl, rfl, rfl⟩
  · simp

end Sys2Proof.Machine

namespace Sys2Proof.Proofs

open Sys2Proof.Machine

/-- Settles O16: construction by its inversion lemma, the steps by theirs. -/
theorem configurationIsSetOnceAtConstruction : Obligations.ConfigurationIsSetOnceAtConstruction := by
  refine ⟨fun F seed R P s h => construct_next_loads_floors h, fun F seed R P => ?_,
    fun F seed R P => (construct_ratCast F seed R P).symm, fun s t h => step_keeps_configuration h⟩
  simp only [construct_eq_next_iff, exists_and_left, exists_eq, and_true]

end Sys2Proof.Proofs

/-! PROOFS. Slices of bit sequences (00_scope.md R9), the nibbles of a payload's bits (20_memory.md R44), and each bit of the frame as a bit
of one block's codeword (43_channel.md R173). -/

namespace Sys2Proof.Machine

/-! ### Slices -/

/-- A slice that fits has the length asked for. -/
theorem slice_length {s : Bits} {a n : Nat} (h : a + n ≤ s.length) : (slice s a n).length = n := by
  simp only [slice, List.length_take, List.length_drop]
  omega

/-- The elements of a slice. -/
theorem slice_getElem? (s : Bits) (a : Nat) {n p : Nat} (hp : p < n) : (slice s a n)[p]? = s[a + p]? := by
  rw [slice, List.getElem?_take_of_lt hp, List.getElem?_drop]

/-- A slice of what stands after the first `a` bits. -/
theorem slice_drop (s : Bits) (a c n : Nat) : slice (s.drop a) c n = slice s (a + c) n := by
  rw [slice, slice, List.drop_drop]

/-! ### The nibbles of a payload's bits -/

/-- Dropping bytes drops eight bits for each. -/
theorem bytesToBits_drop (m : Nat) (B : List Byte) : bytesToBits (B.drop m) = (bytesToBits B).drop (8 * m) := by
  induction m generalizing B with
  | zero => rfl
  | succ m ih =>
    cases B with
    | nil => simp
    | cons b B =>
      have h8 : (byteBits b ++ bytesToBits B).drop 8 = bytesToBits B := rfl
      rw [List.drop_succ_cons, ih, bytesToBits_cons, Nat.mul_succ, Nat.add_comm, ← List.drop_drop, h8]

/-- From bit 8m on stand the bits of byte m, most significant first (R42). -/
theorem bytesToBits_drop_of_getElem? {B : List Byte} {m : Nat} {b : Byte} (h : B[m]? = some b) :
    (bytesToBits B).drop (8 * m) = byteBits b ++ bytesToBits (B.drop (m + 1)) := by
  obtain ⟨hm, rfl⟩ := List.getElem?_eq_some_iff.1 h
  rw [← bytesToBits_drop, List.drop_eq_getElem_cons hm, bytesToBits_cons]

/-- Bits 4(2m) to 4(2m)+3 are the high nibble of byte m. -/
theorem slice_bytesToBits_highNibble {B : List Byte} {m : Nat} {b : Byte} (h : B[m]? = some b) :
    slice (bytesToBits B) (4 * (2 * m)) 4 = [b.getLsbD 7, b.getLsbD 6, b.getLsbD 5, b.getLsbD 4] := by
  have hstart : 4 * (2 * m) = 8 * m + 0 := by omega
  rw [hstart, ← slice_drop, bytesToBits_drop_of_getElem? h]
  rfl

/-- Bits 4(2m+1) to 4(2m+1)+3 are the low nibble of byte m. -/
theorem slice_bytesToBits_lowNibble {B : List Byte} {m : Nat} {b : Byte} (h : B[m]? = some b) :
    slice (bytesToBits B) (4 * (2 * m + 1)) 4 = [b.getLsbD 3, b.getLsbD 2, b.getLsbD 1, b.getLsbD 0] := by
  have hstart : 4 * (2 * m + 1) = 8 * m + 4 := by omega
  rw [hstart, ← slice_drop, bytesToBits_drop_of_getElem? h]
  rfl

/-! ### The bits of a codeword and of the frame -/

/-- Every codeword has 7 bits, also that of a malformed block (41_blockcoder.md R129). -/
@[simp] theorem enc4_length (w : Bits) : (enc4 w).length = 7 := by
  unfold enc4
  split <;> rfl

/-- The code is systematic: the codeword of a 4-bit block begins with the block (41_blockcoder.md R123). -/
theorem enc4_getElem?_info {w : Bits} (hw : w.length = 4) {p : Nat} (hp : p < 4) : (enc4 w)[p]? = w[p]? := by
  obtain ⟨i3, i2, i1, i0, rfl⟩ := List.length_eq_four.1 hw
  have hsplit : enc4 [i3, i2, i1, i0] = [i3, i2, i1, i0] ++ [i1 ^^ i2 ^^ i3, i0 ^^ i2 ^^ i3, i0 ^^ i1 ^^ i3] := rfl
  rw [hsplit, List.getElem?_append_left hp]

/-- Bit 7j+p of the encoded blocks is bit p of the codeword of block j (43_channel.md R173). -/
theorem encodeBlocks_getElem? (n : Nat) (b : Bits) {j p : Nat} (hj : j < n) (hp : p < 7) :
    (encodeBlocks n b)[7 * j + p]? = (enc4 (slice b (4 * j) 4))[p]? := by
  induction n generalizing b j with
  | zero => omega
  | succ n ih =>
    rw [encodeBlocks, Config.infoBitsPerBlock]
    cases j with
    | zero =>
      rw [Nat.mul_zero, Nat.zero_add, List.getElem?_append_left (by rwa [enc4_length])]
      rfl
    | succ j =>
      have hskip : 7 * (j + 1) + p - 7 = 7 * j + p := by omega
      have hnext : 4 + 4 * j = 4 * (j + 1) := by omega
      rw [List.getElem?_append_right (by rw [enc4_length]; omega), enc4_length, hskip, ih (b.drop 4) (by omega), slice_drop,
        hnext]

/-- The same of the frame's 280 blocks. -/
theorem encodeFrame_getElem? (b : Bits) {j p : Nat} (hj : j < 280) (hp : p < 7) :
    (encodeFrame b)[7 * j + p]? = (enc4 (slice b (4 * j) 4))[p]? :=
  encodeBlocks_getElem? _ b hj hp

/-- A frame bit at one of the first four positions of its block is a copy of an input bit (R44). -/
theorem encodeFrame_getElem?_info {b : Bits} (hb : b.length = 1120) {k : Nat} (hk : k < 1960) (hp : k % 7 < 4) :
    (encodeFrame b)[k]? = b[4 * (k / 7) + k % 7]? := by
  calc (encodeFrame b)[k]?
      = (encodeFrame b)[7 * (k / 7) + k % 7]? := by rw [Nat.div_add_mod]
    _ = (enc4 (slice b (4 * (k / 7)) 4))[k % 7]? := encodeFrame_getElem? b (by omega) (by omega)
    _ = (slice b (4 * (k / 7)) 4)[k % 7]? := enc4_getElem?_info (slice_length (by omega)) hp
    _ = b[4 * (k / 7) + k % 7]? := slice_getElem? b _ hp

/-- The last three bits of a block of the frame are the parity bits r2, r1, r0 of its information bits (41_blockcoder.md R123). -/
theorem encodeFrame_getElem?_parity {b : Bits} {j : Nat} {i3 i2 i1 i0 : Bool} (hj : j < 280)
    (hblock : slice b (4 * j) 4 = [i3, i2, i1, i0]) :
    (encodeFrame b)[7 * j + 4]? = some (i1 ^^ i2 ^^ i3) ∧
    (encodeFrame b)[7 * j + 5]? = some (i0 ^^ i2 ^^ i3) ∧
    (encodeFrame b)[7 * j + 6]? = some (i0 ^^ i1 ^^ i3) := by
  simp [encodeFrame_getElem? b hj, hblock, enc4]

end Sys2Proof.Machine

namespace Sys2Proof.Proofs

open Sys2Proof.Machine

/-- Settles O40: the nibbles by the bits of one byte, the frame's bits by those of one codeword. -/
theorem blocksCarryNibbles : Obligations.BlocksCarryNibbles := by
  intro B hB
  have hbits : (bytesToBits B).length = 1120 := by rw [bytesToBits_length, hB]
  exact ⟨fun m b hb => ⟨slice_bytesToBits_highNibble hb, slice_bytesToBits_lowNibble hb⟩,
    fun k hk hp => encodeFrame_getElem?_info hbits hk hp,
    fun j i3 i2 i1 i0 hj hblock => encodeFrame_getElem?_parity hj hblock⟩

end Sys2Proof.Proofs

/-! PROOFS. The status word as a number (30_encoding.md R67), the packing of bits into bytes (R65), the metadata block (R70), the
decoder on encoded, assembled and illegal headers (R61 to R64, R71 to R75), and the cutting of a stream into requests (R63). -/

namespace Sys2Proof.Machine

/-! ### The status word -/

/-- Joining two words puts the first above the second. -/
theorem toNat_append_eq_add {n m : Nat} (x : BitVec n) (y : BitVec m) : (x ++ y).toNat = x.toNat * 2 ^ m + y.toNat := by
  rw [BitVec.toNat_append, ← Nat.shiftLeft_add_eq_or_of_lt y.isLt, Nat.shiftLeft_eq]

/-- Each field of the status word at its place, every other bit 0 (R67). -/
theorem status_toNat (r : Response) :
    r.status.toNat = r.opc.toNat * 2 ^ 28 + r.rc.code.toNat * 2 ^ 24 + r.flags.trunc.toNat * 2 ^ 18 +
      r.flags.malf.toNat * 2 ^ 17 + r.flags.err.toNat * 2 ^ 16 := by
  simp only [Response.status, toNat_append_eq_add, BitVec.toNat_ofBool, BitVec.toNat_ofNat]
  omega

/-- The answer to an illegal header, in bytes: OPC echoed, RC = 0xF, every other bit of S and of RLEN 0, no data (R71). -/
theorem illegalResponse_bytes (h : Word) :
    (illegalResponse h).bytes = wire (h.toNat / 2 ^ 28 * 2 ^ 28 + 0xF * 2 ^ 24) 0 [] := by
  have hstatus : (illegalResponse h).status.toNat = h.toNat / 2 ^ 28 * 2 ^ 28 + 0xF * 2 ^ 24 := by
    simp [status_toNat, illegalResponse, headerOpc_toNat, OutcomeCode.code, Flags.clear]
  rw [Response.bytes, hstatus]
  rfl

/-! ### Bits packed into bytes -/

/-- Bit k of a byte in stream order is its bit 7-k (R42). -/
theorem byteBits_getElem? (b : Byte) {k : Nat} (hk : k < 8) : (byteBits b)[k]? = some (b.getLsbD (7 - k)) := by
  interval_cases k <;> rfl

/-- Bit k of some bytes in stream order is bit `7 - (k mod 8)` of byte `k div 8` (R42). -/
theorem bytesToBits_getElem? {B : List Byte} {k : Nat} {b : Byte} (h : B[k / 8]? = some b) :
    (bytesToBits B)[k]? = some (b.getLsbD (7 - k % 8)) := by
  have hk : k % 8 < 8 := Nat.mod_lt _ (by decide)
  calc (bytesToBits B)[k]?
      = ((bytesToBits B).drop (8 * (k / 8)))[k % 8]? := by rw [List.getElem?_drop, Nat.div_add_mod]
    _ = (byteBits b)[k % 8]? := by
      rw [bytesToBits_drop_of_getElem? h, List.getElem?_append_left (by rwa [byteBits_length])]
    _ = some (b.getLsbD (7 - k % 8)) := byteBits_getElem? b hk

/-- Whole bytes of bits come back from the bytes that carry them (40_bitstream.md R105). -/
theorem bytesToBits_bitsToBytes {s : Bits} (h : s.length % 8 = 0) : bytesToBits (bitsToBytes s) = s := by
  obtain ⟨rest, hs, hrest⟩ := bits_eq_bytes_append_rest s
  obtain rfl : rest = [] := List.length_eq_zero_iff.1 (hrest.trans h)
  rw [List.append_nil] at hs
  exact hs.symm

/-- The bits of a packed sequence are the sequence and its zero pads (R65). -/
theorem bytesToBits_pack (s : Bits) :
    bytesToBits (pack s) = s ++ List.replicate ((8 - s.length % 8) % 8) false :=
  bytesToBits_bitsToBytes (by rw [List.length_append, List.length_replicate]; omega)

/-! ### The metadata block -/

/-- A value in range, framed in n bytes and read back as a word, is the value. -/
theorem ofNat_beValue_beBytes {n w : Nat} (hw : 256 ^ n = 2 ^ w) (x : BitVec w) :
    BitVec.ofNat w (beValue (beBytes n x.toNat)) = x := by
  rw [beValue_beBytes, hw, Nat.mod_eq_of_lt x.isLt, BitVec.ofNat_toNat, BitVec.setWidth_eq]

/-- The word read from n bytes has their big-endian value. -/
theorem toNat_ofNat_beValue {n w : Nat} (hw : 256 ^ n = 2 ^ w) {bs : List Byte} (hn : bs.length = n) :
    (BitVec.ofNat w (beValue bs)).toNat = beValue bs := by
  have hlt := beValue_lt bs
  rw [hn, hw] at hlt
  rw [BitVec.toNat_ofNat, Nat.mod_eq_of_lt hlt]

/-- The bytes of the word read from n bytes are those bytes. -/
theorem beBytes_toNat_ofNat_beValue {n w : Nat} (hw : 256 ^ n = 2 ^ w) {bs : List Byte} (hn : bs.length = n) :
    beBytes n (BitVec.ofNat w (beValue bs)).toNat = bs := by
  rw [toNat_ofNat_beValue hw hn, ← hn, beBytes_beValue]

@[simp] theorem metadataBlock_length (m : Metadata) : (metadataBlock m).length = 16 := by
  simp [metadataBlock]

/-- The three fields of a block of 16 bytes are those bytes. -/
theorem fields_append_of_length_eq_sixteen {D : List Byte} (hD : D.length = 16) :
    D.take 8 ++ (D.drop 8).take 4 ++ (D.drop 12).take 4 = D := by
  have hlast : (D.drop 12).take 4 = (D.drop 8).drop 4 := by
    rw [List.drop_drop, List.take_of_length_le (by rw [List.length_drop]; omega)]
  rw [hlast, List.append_assoc, List.take_append_drop, List.take_append_drop]

/-- Writing the metadata that was read gives the bytes it was read from. -/
theorem metadataBlock_readMetadata {D : List Byte} (hD : D.length = 16) : metadataBlock (readMetadata D) = D := by
  simp only [metadataBlock, readMetadata]
  rw [beBytes_toNat_ofNat_beValue rfl (by simp; omega), beBytes_toNat_ofNat_beValue rfl (by simp; omega),
    beBytes_toNat_ofNat_beValue rfl (by simp; omega), fields_append_of_length_eq_sixteen hD]

/-- Reading the metadata that was written gives the metadata. -/
theorem readMetadata_metadataBlock (m : Metadata) : readMetadata (metadataBlock m) = m := by
  have htime : (metadataBlock m).take 8 = beBytes 8 m.timestamp.toNat := rfl
  have htotal : ((metadataBlock m).drop 8).take 4 = beBytes 4 m.totalSegments.toNat := rfl
  have hnumber : ((metadataBlock m).drop 12).take 4 = beBytes 4 m.segmentNumber.toNat := rfl
  rw [readMetadata, htime, htotal, hnumber, ofNat_beValue_beBytes rfl, ofNat_beValue_beBytes rfl, ofNat_beValue_beBytes rfl]

/-- The fields that are read are the big-endian values of bytes 0 to 7, 8 to 11 and 12 to 15 (R70). -/
theorem readMetadata_toNat {D : List Byte} (hD : D.length = 16) :
    (readMetadata D).timestamp.toNat = beValue (D.take 8) ∧
    (readMetadata D).totalSegments.toNat = beValue ((D.drop 8).take 4) ∧
    (readMetadata D).segmentNumber.toNat = beValue (D.drop 12) := by
  have hlast : (D.drop 12).take 4 = D.drop 12 := List.take_of_length_le (by rw [List.length_drop]; omega)
  refine ⟨toNat_ofNat_beValue (n := 8) rfl (by simp; omega), toNat_ofNat_beValue (n := 4) rfl (by simp; omega), ?_⟩
  rw [← hlast]
  exact toNat_ofNat_beValue (n := 4) rfl (by simp; omega)

/-! ### Encoded headers -/

/-- The header of a well-formed command decodes to it (R61, R64). -/
theorem decodeHeader_encodeHeader {i : Instr} (hi : i.WellFormed) : decodeHeader (encodeHeader i) = .ok i := by
  obtain ⟨hopc, hrsv, hlen⟩ := Laws.Header.fields_of_toNat _ _ _ hi (encodeHeader_toNat i hi)
  rw [decodeHeader_ok_iff, hopc, hlen]
  exact ⟨hrsv, opcodeMap_opcode i⟩

/-- Decoding a header word's own bytes followed by data. -/
theorem decode_header_append (h : Word) (D : List Byte) :
    decode (beBytes 4 h.toNat ++ D) = (decodeHeader h).map fun i => (i, D) := by
  rw [decode_append _ D h.isLt, BitVec.ofNat_toNat, BitVec.setWidth_eq]

/-- A request that is an encoded command and bytes after it decodes to the command and those bytes. -/
theorem decode_encode_append {i : Instr} (hi : i.WellFormed) (D : List Byte) : decode (encode i ++ D) = .ok (i, D) := by
  rw [encode, decode_header_append, decodeHeader_encodeHeader hi]
  rfl

/-- An encoded command and bytes after it conform exactly when these are nD bytes (R63). -/
theorem conforming_encode_append_iff {i : Instr} (hi : i.WellFormed) (D : List Byte) :
    Conforming (encode i ++ D) ↔ D.length = operandBytes i := by
  simp only [Conforming, decode_encode_append hi D]

/-! ### Illegal headers -/

/-- The opcode map has a command for the opcodes 1 to 7 and for no other (R64). -/
theorem opcodeMap_eq_none_iff (opc : BitVec 4) (len : Nat) :
    opcodeMap opc len = none ↔ opc.toNat = 0 ∨ 8 ≤ opc.toNat := by
  have hlt := opc.isLt
  unfold opcodeMap
  generalize opc.toNat = n at *
  interval_cases n <;> simp

/-- A header is illegal by its reserved field or because the opcode map has no command for it (R71). -/
theorem illegalHeader_iff (h : Word) :
    IllegalHeader h ↔ opcodeMap (headerOpc h) (headerLen h) = none ∨ headerRsv h ≠ 0#4 := by
  have hrsv : headerRsv h = 0#4 ↔ h.toNat / 2 ^ 24 % 16 = 0 := by
    rw [← headerRsv_toNat, BitVec.toNat_eq, BitVec.toNat_ofNat, Nat.zero_mod]
  rw [IllegalHeader, ← or_assoc, opcodeMap_eq_none_iff, headerOpc_toNat, ne_eq, ne_eq, hrsv]

/-- The decoder rejects an illegal header and says why (R71, R73). -/
theorem decodeHeader_of_illegalHeader {h : Word} (hill : IllegalHeader h) :
    decodeHeader h = .error (.illegalOpcode h) ∨ decodeHeader h = .error (.reservedField h) := by
  by_cases hr : headerRsv h = 0#4
  · have hnone := ((illegalHeader_iff h).1 hill).resolve_right (not_not_intro hr)
    exact .inl (by rw [decodeHeader, if_pos hr, hnone])
  · exact .inr (if_neg hr)

/-- A header that is not illegal decodes to a command: the decoder is total (R71). -/
theorem exists_decodeHeader_eq_ok {h : Word} (hlegal : ¬ IllegalHeader h) :
    ∃ i : Instr, i.WellFormed ∧ decodeHeader h = .ok i := by
  rw [illegalHeader_iff, not_or, not_not] at hlegal
  obtain ⟨hmap, hr⟩ := hlegal
  obtain ⟨i, hi⟩ := Option.ne_none_iff_exists'.1 hmap
  have hd : decodeHeader h = .ok i := (decodeHeader_ok_iff h i).2 ⟨hr, hi⟩
  exact ⟨i, decodeHeader_wellFormed h i hd, hd⟩

/-- An illegal header asks for no data (R63, R71). -/
theorem headerDataBytes_of_illegalHeader {h : Word} (hill : IllegalHeader h) : headerDataBytes h = 0 := by
  obtain hd | hd := decodeHeader_of_illegalHeader hill <;> rw [headerDataBytes, hd]

/-- The four bytes of an illegal header are rejected for the reason the header is. -/
theorem decode_of_illegalHeader {h : Word} (hill : IllegalHeader h) :
    decode (beBytes 4 h.toNat) = .error (.illegalOpcode h) ∨ decode (beBytes 4 h.toNat) = .error (.reservedField h) := by
  rw [← List.append_nil (beBytes 4 h.toNat), decode_header_append]
  exact (decodeHeader_of_illegalHeader hill).imp (fun hd => by rw [hd]; rfl) (fun hd => by rw [hd]; rfl)

/-- An illegal header is a whole request by itself (R63). -/
theorem conforming_of_illegalHeader {h : Word} (hill : IllegalHeader h) : Conforming (beBytes 4 h.toNat) := by
  obtain hd | hd := decode_of_illegalHeader hill <;> simp [Conforming, hd]

/-- With no data behind the header, the answer to an illegal header is its response alone. -/
theorem performIllegal_ready (h : Word) {s : State} (hs : s.operand = []) :
    performIllegal h s = .next (s.after (illegalResponse h).bytes 0) := by
  rw [performIllegal, perform_ready 0 s _ (by rw [hs]; rfl)]
  rfl

/-- The step on a request whose header is rejected. -/
theorem step_of_decode_eq_error {s : State} {request : List Byte} {later : List (List Byte)} {h : Word}
    (hreq : s.requests = request :: later)
    (hd : decode request = .error (.illegalOpcode h) ∨ decode request = .error (.reservedField h)) :
    step s = performIllegal h { s with requests := later, operand := request.drop 4 } := by
  obtain hd | hd := hd <;> simp [step, fetch, hreq, hd]

/-- The step answers an illegal header with S = (OPC, 0xF, zeros) and RLEN = 0, and changes nothing else (R71). -/
theorem step_of_illegalHeader {h : Word} {s : State} {later : List (List Byte)} (hill : IllegalHeader h)
    (hreq : s.requests = beBytes 4 h.toNat :: later) :
    step s = .next ({ s with requests := later }.after (wire (h.toNat / 2 ^ 28 * 2 ^ 28 + 0xF * 2 ^ 24) 0 []) 0) := by
  have hdata : (beBytes 4 h.toNat).drop 4 = [] := rfl
  rw [step_of_decode_eq_error hreq (decode_of_illegalHeader hill), hdata, performIllegal_ready h rfl, illegalResponse_bytes]
  rfl

/-! ### Assembled requests -/

/-- A bit literal's data are the bytes that hold its LEN bits (R65, R74). -/
theorem bitLiteral_data_length {o : BitLiteral} {D : List Byte} (h : o.data = some D) : D.length = (o.len + 7) / 8 := by
  cases o with
  | bin s =>
    obtain rfl : pack s = D := Option.some.inj h
    exact pack_length s
  | hex B n =>
    simp only [BitLiteral.data, Option.ite_none_right_eq_some, Option.some.injEq] at h
    obtain ⟨hn, rfl⟩ := h
    simp only [List.length_take, BitLiteral.len]
    omega

/-- PSEG's metadata operands take 16 bytes (R70). -/
theorem metadataOperand_length {ts : Int} {tot seg : Nat} {m : List Byte} (h : metadataOperand ts tot seg = some m) :
    m.length = 16 := by
  simp only [metadataOperand, Option.ite_none_right_eq_some, Option.some.injEq] at h
  obtain ⟨-, rfl⟩ := h
  simp

/-- A request is made only of a well-formed command, its encoding and its data. -/
theorem requestOf_eq_some_iff {i : Instr} {D request : List Byte} :
    requestOf i D = some request ↔ i.WellFormed ∧ encode i ++ D = request := by
  simp [requestOf]

/-- A line assembles to one well-formed command and the nD data bytes of that command, and to nothing else (R75). -/
theorem assemble_eq_some {line : AsmLine} {request : List Byte} (h : assemble line = some request) :
    ∃ (i : Instr) (D : List Byte), i.WellFormed ∧ D.length = operandBytes i ∧ request = encode i ++ D := by
  cases line with
  | ser B =>
    obtain ⟨hi, rfl⟩ := requestOf_eq_some_iff.1 h
    exact ⟨_, _, hi, rfl, rfl⟩
  | des o | enc o | dec o | syn o | noise o =>
    obtain ⟨D, hD, hreq⟩ := Option.bind_eq_some_iff.1 h
    obtain ⟨hi, rfl⟩ := requestOf_eq_some_iff.1 hreq
    exact ⟨_, _, hi, bitLiteral_data_length hD, rfl⟩
  | pseg ts tot seg payload =>
    obtain ⟨m, hm, hreq⟩ := Option.bind_eq_some_iff.1 h
    obtain ⟨hi, rfl⟩ := requestOf_eq_some_iff.1 hreq
    exact ⟨_, _, hi, by rw [List.length_append, metadataOperand_length hm, operandBytes], rfl⟩

/-- A NOISE line of 245 bytes assembles to the header of LEN = 1960 and those bytes. -/
theorem assemble_noise_hex {B : List Byte} (hB : B.length = 245) :
    assemble (.noise (.hex B 1960)) = some (encode (.noise 1960) ++ B) := by
  have hdata : (BitLiteral.hex B 1960).data = some B := by
    rw [BitLiteral.data, if_pos (by omega), List.take_of_length_le (by omega)]
  have hi : (Instr.noise 1960).WellFormed := by decide
  rw [assemble, hdata]
  exact requestOf_eq_some_iff.2 ⟨hi, rfl⟩

/-- A PSEG line assembles to its header, the metadata block and the payload. -/
theorem assemble_pseg {ts : Int} {tot seg : Nat} {m payload : List Byte} (hm : metadataOperand ts tot seg = some m)
    (hi : (Instr.pseg payload.length).WellFormed) :
    assemble (.pseg ts tot seg payload) = some (encode (.pseg payload.length) ++ (m ++ payload)) := by
  rw [assemble, hm]
  exact requestOf_eq_some_iff.2 ⟨hi, rfl⟩

/-! ### Cutting a stream into requests -/

/-- The first of the requests in a stream is cut off at its end, whatever follows it (R63). -/
theorem takeRequest_append {request : List Byte} (h : Conforming request) (rest : List Byte) :
    takeRequest (request ++ rest) = some (request, rest) := by
  obtain ⟨h4, hlen⟩ := (conforming_iff request).1 h
  have hheader : headerOf (request ++ rest) = headerOf request := by
    rw [headerOf, headerOf, List.take_append_of_le_length h4]
  rw [takeRequest, hheader, ← hlen, if_pos (by simp; omega), List.take_left, List.drop_left]

/-- Requests sent one after the other are told apart again (R63). -/
theorem splitRequests_flatten_append {requests : List (List Byte)} (h : ∀ request ∈ requests, Conforming request)
    (rest : List Byte) : splitRequests requests.length (requests.flatten ++ rest) = (requests, rest) := by
  induction requests with
  | nil => rfl
  | cons request requests ih =>
    obtain ⟨hfirst, hlater⟩ := List.forall_mem_cons.1 h
    rw [List.flatten_cons, List.append_assoc, List.length_cons, splitRequests, takeRequest_append hfirst]
    simp only [ih hlater]

end Sys2Proof.Machine

namespace Sys2Proof.Proofs

open Sys2Proof.Machine

/-- Settles O5: a line's request is an encoded command and its nD data bytes. -/
theorem everyLineIsOneConformingRequest : Obligations.EveryLineIsOneConformingRequest := by
  intro line request hline
  obtain ⟨i, D, hi, hD, rfl⟩ := assemble_eq_some hline
  exact ⟨(conforming_encode_append_iff hi D).2 hD, i, D, hi, decode_encode_append hi D, rfl⟩

/-- Settles O6, the splitting by induction on the requests. -/
theorem requestsAreToldApart : Obligations.RequestsAreToldApart :=
  ⟨fun _ D hi => conforming_encode_append_iff hi D,
    fun _ => ⟨rfl, rfl, rfl, rfl, rfl, rfl, rfl⟩,
    fun _ hill => ⟨headerDataBytes_of_illegalHeader hill, conforming_of_illegalHeader hill⟩,
    fun _ rest hall => splitRequests_flatten_append hall rest⟩

/-- Settles O8: the decoder rejects exactly the illegal headers, and the step answers what it rejects. -/
theorem illegalHeaderIsAnsweredIllegal : Obligations.IllegalHeaderIsAnsweredIllegal :=
  ⟨fun _ _ _ hill hreq => step_of_illegalHeader hill hreq, fun _ hlegal => exists_decodeHeader_eq_ok hlegal⟩

/-- Settles O22: an operand's elements by the bits of the byte they stand in, a result by the round trip of whole bytes. -/
theorem bitPackingIsMostSignificantFirst : Obligations.BitPackingIsMostSignificantFirst := by
  refine ⟨fun len D hD => ⟨bitOperand_length len D hD, fun k b hk hb => ?_⟩,
    fun s => ⟨pack_length s, bytesToBits_pack s⟩, by decide⟩
  rw [bitOperand, List.getElem?_take_of_lt hk, bytesToBits_getElem? hb]

/-- Settles O38 by the round trip of big-endian framing, field by field. -/
theorem metadataBlockIsBigEndian : Obligations.MetadataBlockIsBigEndian :=
  ⟨fun _ hD => ⟨metadataBlock_readMetadata hD, readMetadata_toNat hD⟩,
    fun m => ⟨metadataBlock_length m, readMetadata_metadataBlock m⟩⟩

/-- Settles O1: the examples with fixed data by evaluation, those with any data by the decoder on encoded headers, the illegal header
by the step's answer to it. -/
theorem specExamplesAssembleAndDecode : Obligations.SpecExamplesAssembleAndDecode := by
  have hnoise : encode (.noise 1960) = [0x60, 0x00, 0x07, 0xA8] := by decide
  have hpseg : encode (.pseg 140) = [0x70, 0x00, 0x00, 0x8C] := by decide
  have hmeta : metadataOperand 1 1 1 = some [0, 0, 0, 0, 0, 0, 0, 1, 0, 0, 0, 1, 0, 0, 0, 1] := by decide
  have hlen : (([0x48, 0x69] : List Byte) ++ List.replicate 138 0x00).length = 140 := by
    rw [List.length_append, List.length_replicate]
    rfl
  have hillegal : beBytes 4 (0x80000000 : Word).toNat = [0x80, 0x00, 0x00, 0x00] := by decide
  refine ⟨by decide, by decide, by decide, by decide, by decide, fun B hB => ⟨?_, ?_⟩, ?_, by decide, by decide,
    by decide, by decide, by decide, fun D => ?_, fun s later hreq => ?_⟩
  · rw [assemble_noise_hex hB, hnoise]
  · rw [← hnoise, decode_encode_append (by decide)]
  · rw [assemble_pseg hmeta (by rw [hlen]; decide), hlen, hpseg]
    rfl
  · rw [← hpseg, decode_encode_append (by decide)]
  · rw [← hillegal] at hreq
    exact step_of_illegalHeader (.inr (.inl (by decide))) hreq

/-- Settles O49 by the sum that the joined fields of the word make. -/
theorem statusWordLayout : Obligations.StatusWordLayout := status_toNat

end Sys2Proof.Proofs

/-! PROOFS. The elements and bytes of the two conversions and their round trip (40_bitstream.md R100, R101, R105), and the commands SER
and DES (R102 to R104). -/

namespace Sys2Proof.Machine

/-! ### The bits of bytes and the bytes of bits -/

/-- A byte is the sum of its bits at their places, most significant first (R101). -/
theorem byte_toNat_eq_sum (b : Byte) :
    b.toNat = ∑ j ∈ Finset.range 8, (b.getLsbD (7 - j)).toNat * 2 ^ (7 - j) := by
  revert b; decide +kernel

/-- Whole bytes in front of a bit sequence come out in front of its own bytes. -/
theorem bitsToBytes_bytesToBits_append (B : List Byte) (s : Bits) :
    bitsToBytes (bytesToBits B ++ s) = B ++ bitsToBytes s := by
  induction B with
  | nil => rfl
  | cons b B ih => rw [bytesToBits_cons, List.append_assoc, bitsToBytes_byteBits_append, ih, List.cons_append]

/-- Bytes come back from their bits (R105). -/
theorem bitsToBytes_bytesToBits (B : List Byte) : bitsToBytes (bytesToBits B) = B := by
  have happend := bitsToBytes_bytesToBits_append B []
  rwa [List.append_nil, bitsToBytes_short [] (by decide), List.append_nil] at happend

/-- Bit 8m+j of some bytes is bit 7-j of byte m (R100). -/
theorem bytesToBits_getElem?_eight_mul_add {B : List Byte} {m j : Nat} {b : Byte} (hb : B[m]? = some b) (hj : j < 8) :
    (bytesToBits B)[8 * m + j]? = some (b.getLsbD (7 - j)) := by
  have hgroup : (8 * m + j) / 8 = m := by omega
  have hplace : (8 * m + j) % 8 = j := by omega
  rw [bytesToBits_getElem? (hgroup.symm ▸ hb), hplace]

/-- Bit j of group m of a bit sequence is bit 7-j of its byte m (R101). -/
theorem getElem?_of_bitsToBytes_getElem? {s : Bits} {m j : Nat} {b : Byte} (hb : (bitsToBytes s)[m]? = some b) (hj : j < 8) :
    s[8 * m + j]? = some (b.getLsbD (7 - j)) := by
  obtain ⟨rest, hs, -⟩ := bits_eq_bytes_append_rest s
  have hbit := bytesToBits_getElem?_eight_mul_add hb hj
  obtain ⟨hlt, -⟩ := List.getElem?_eq_some_iff.1 hbit
  rw [hs, List.getElem?_append_left hlt, hbit]

/-- Bits are dropped exactly when their number is no multiple of 8 (R101). -/
theorem truncated_eq_true_iff (s : Bits) : truncated s = true ↔ s.length % 8 ≠ 0 := bne_iff_ne

/-! ### The data of SER and DES -/

/-- Packing whole bytes of bits adds no pads (30_encoding.md R65). -/
theorem pack_bytesToBits (B : List Byte) : pack (bytesToBits B) = B := by
  have hpads : (8 - (bytesToBits B).length % 8) % 8 = 0 := by rw [bytesToBits_length]; omega
  rw [pack, hpads, List.replicate_zero, List.append_nil, bitsToBytes_bytesToBits]

/-- A bit operand of eight bits a byte is all the bits of its bytes. -/
theorem bitOperand_eight_mul_length (D : List Byte) : bitOperand (8 * D.length) D = bytesToBits D :=
  List.take_of_length_le (by rw [bytesToBits_length])

/-- The complete bytes of a bit operand are the first bytes that carry it; what is left of the next one is dropped (R103). -/
theorem bitsToBytes_bitOperand (len : Nat) (D : List Byte) : bitsToBytes (bitOperand len D) = D.take (len / 8) := by
  have hsplit : bitOperand len D =
      bytesToBits (D.take (len / 8)) ++ (bytesToBits (D.drop (len / 8))).take (len - 8 * (D.take (len / 8)).length) := by
    conv_lhs => rw [bitOperand, ← List.take_append_drop (len / 8) D, bytesToBits_append, List.take_append, bytesToBits_length]
    rw [List.take_of_length_le (by rw [bytesToBits_length, List.length_take]; omega)]
  have hshort : ((bytesToBits (D.drop (len / 8))).take (len - 8 * (D.take (len / 8)).length)).length < 8 := by
    simp only [List.length_take, bytesToBits_length, List.length_drop]
    omega
  rw [hsplit, bitsToBytes_bytesToBits_append, bitsToBytes_short _ hshort, List.append_nil]

/-! ### Headers and responses as numbers -/

/-- The header of a command, as its opcode above LEN (30_encoding.md R61). -/
theorem encode_eq_beBytes {i : Instr} (hi : i.WellFormed) : encode i = beBytes 4 (i.opcode.toNat * 2 ^ 28 + i.len) := by
  rw [encode, encodeHeader_toNat i hi]

/-- A response in bytes is its status word, its length and its data (30_encoding.md R66). -/
theorem bytes_eq_wire (r : Response) : r.bytes = wire r.status.toNat r.rlen r.data := rfl

/-- On data of its length a command answers, takes its draws and changes nothing else. -/
theorem exec_eq_after {i : Instr} {s : State} (h : s.operand.length = operandBytes i) :
    exec i s = .next (s.after (effectOf i s.operand { s with operand := [] }).1.bytes (s.drawsOf i)) := by
  have hready := exec_ready i s h
  rw [hready, ← (exec_next hready).2]

/-! ### SER and DES -/

/-- SER's response, in bytes (R102). -/
theorem effectOf_ser_bytes (len : Nat) (B : List Byte) (t : State) :
    (effectOf (.ser len) B t).1.bytes = wire 0x10000000 (8 * len) B := by
  rw [bytes_eq_wire, status_toNat]
  simp only [effectOf, pack_bytesToBits]
  rfl

/-- DES's response, in bytes: TRUNC is set exactly when bits are dropped, and no other flag (R103, R104). -/
theorem effectOf_des_bytes {len : Nat} {D : List Byte} (hD : D.length = (len + 7) / 8) (t : State) :
    (effectOf (.des len) D t).1.bytes =
      wire (if len % 8 = 0 then 0x20000000 else 0x20040000) (len / 8) (D.take (len / 8)) := by
  rw [bytes_eq_wire, status_toNat]
  simp only [effectOf, bitsToBytes_bitOperand, truncated, bitOperand_length len D hD]
  by_cases hwhole : len % 8 = 0
  · rw [hwhole]
    rfl
  · rw [if_neg hwhole, bne_iff_ne.2 hwhole]
    rfl

end Sys2Proof.Machine

namespace Sys2Proof.Proofs

open Sys2Proof.Machine

/-- Settles O19: bit 8m+j stands in byte m, at place j. -/
theorem bytesToBitsIsMostSignificantFirst : Obligations.BytesToBitsIsMostSignificantFirst :=
  fun B => ⟨bytesToBits_length B, fun _ _ _ hb hj => bytesToBits_getElem?_eight_mul_add hb hj⟩

/-- Settles O20: the bits of group m are those of byte m, and a byte is the sum of its bits. -/
theorem bitsToBytesTakesGroupsOfEight : Obligations.BitsToBytesTakesGroupsOfEight := by
  refine fun s => ⟨bitsToBytes_length s, truncated_eq_true_iff s, fun m hm => ?_⟩
  rw [← bitsToBytes_length] at hm
  have hb := List.getElem?_eq_getElem hm
  refine ⟨_, hb, (byte_toNat_eq_sum _).trans (Finset.sum_congr rfl fun j hj => ?_)⟩
  rw [List.getD_eq_getElem?_getD, getElem?_of_bitsToBytes_getElem? hb (Finset.mem_range.1 hj), Option.getD_some]

/-- Settles O21: each conversion undoes the other on whole bytes. -/
theorem codecRoundTrip : Obligations.CodecRoundTrip := by
  refine ⟨fun B => ⟨bitsToBytes_bytesToBits B, ?_⟩, fun s hs => bytesToBits_bitsToBytes hs⟩
  rw [truncated, bytesToBits_length, Nat.mul_mod_right]
  rfl

/-- Settles O23: the header is SER's encoding, and packing gives the operand bytes back. -/
theorem serAnswersTheBitsOfItsBytes : Obligations.SerAnswersTheBitsOfItsBytes := by
  intro len s hlen hD
  have hi : (Instr.ser len).WellFormed := hlen
  have hheader : encode (.ser len) = beBytes 4 (0x10000000 + len) := by
    simp [encode_eq_beBytes hi, Instr.opcode, Instr.len]
  refine ⟨?_, ?_, by rw [← hD, bitOperand_eight_mul_length], by omega⟩
  · rw [← hheader, decode_encode_append hi]
  · rw [exec_eq_after hD, effectOf_ser_bytes]
    rfl

/-- Settles O24: the header is DES's encoding, and the complete bytes of the bit operand are the first operand bytes. -/
theorem desAnswersTheCompleteBytes : Obligations.DesAnswersTheCompleteBytes := by
  intro len s hlen hD
  have hi : (Instr.des len).WellFormed := hlen
  have hheader : encode (.des len) = beBytes 4 (0x20000000 + len) := by
    simp [encode_eq_beBytes hi, Instr.opcode, Instr.len]
  refine ⟨?_, ?_⟩
  · rw [← hheader, decode_encode_append hi]
  · rw [exec_eq_after hD, effectOf_des_bytes hD]
    rfl

end Sys2Proof.Proofs

/-! PROOFS. The code of the linear block coder (41_blockcoder.md): the table of its codewords (R124), the syndrome as a linear map (R131) and
the laws of detection (R133), and the commands ENC, DEC and SYN (R128 to R132). -/

namespace Sys2Proof.Machine

open Sys2Proof.Claims

/-! ### Sums and flips of bit sequences -/

@[simp] theorem wordBits_length (n w : Nat) : (wordBits n w).length = n := by
  rw [wordBits, List.length_map, List.length_range]

@[simp] theorem flipBit_length (v : Bits) (p : Nat) : (flipBit v p).length = v.length :=
  List.length_modify ..

/-- Adding zeros changes nothing. -/
theorem zipWith_xor_zeros {n : Nat} {v : Bits} (hv : v.length = n) : (List.replicate n false).zipWith xor v = v := by
  subst hv
  induction v with
  | nil => rfl
  | cons a v ih => rw [List.length_cons, List.replicate_succ, List.zipWith_cons_cons, ih, Bool.false_xor]

/-- Two sequences of one length add up to zeros only when they are equal. -/
theorem eq_of_zipWith_xor_eq_zeros {n : Nat} {u v : Bits} (hu : u.length = n) (hv : v.length = n)
    (h : u.zipWith xor v = List.replicate n false) : u = v := by
  induction n generalizing u v with
  | zero => rw [List.length_eq_zero_iff.1 hu, List.length_eq_zero_iff.1 hv]
  | succ n ih =>
    obtain ⟨a, u, rfl⟩ := List.exists_cons_of_length_eq_add_one hu
    obtain ⟨b, v, rfl⟩ := List.exists_cons_of_length_eq_add_one hv
    rw [List.zipWith_cons_cons, List.replicate_succ, List.cons.injEq] at h
    obtain ⟨hab, huv⟩ := h
    rw [bne_eq_false_iff_eq.1 hab, ih (Nat.succ.inj hu) (Nat.succ.inj hv) huv]

/-- Flipping a bit is adding the pattern with that bit alone. -/
theorem flipBit_eq_zipWith_xor {n : Nat} {v : Bits} (hv : v.length = n) (p : Nat) :
    flipBit v p = v.zipWith xor (flipBit (List.replicate n false) p) := by
  subst hv
  induction v generalizing p with
  | nil => exact List.modify_nil ..
  | cons a v ih =>
    cases p with
    | zero =>
      have hzeros : v.zipWith xor (List.replicate v.length false) = v := by
        rw [List.zipWith_comm_of_comm Bool.xor_comm, zipWith_xor_zeros rfl]
      simp [flipBit, List.replicate_succ, hzeros]
    | succ p =>
      have hrest := ih p
      simp only [flipBit] at hrest
      simp [flipBit, List.replicate_succ, ← hrest]

/-! ### The syndrome -/

@[simp] theorem syn7_length (v : Bits) : (syn7 v).length = 3 := by
  unfold syn7
  split <;> rfl

/-- The syndrome of a sum is the sum of the syndromes (R131). -/
theorem syn7_zipWith_xor {u v : Bits} (hu : u.length = 7) (hv : v.length = 7) :
    syn7 (u.zipWith xor v) = (syn7 u).zipWith xor (syn7 v) := by
  match u, v, hu, hv with
  | [_, _, _, _, _, _, _], [_, _, _, _, _, _, _], _, _ =>
    simp only [syn7, List.zipWith_cons_cons, List.zipWith_nil_left, List.cons.injEq, and_true]
    simp only [Bool.xor_left_comm, Bool.xor_comm, and_self]

/-- The syndrome of a codeword is zero: each parity bit cancels its own sum (R123, R125). -/
theorem syn7_enc4 (w : Bits) : syn7 (enc4 w) = List.replicate 3 false := by
  unfold enc4
  split
  next i3 i2 i1 i0 => revert i3 i2 i1 i0; decide
  next => rfl

/-- The syndrome of a codeword with errors is that of the errors (R131). -/
theorem syn7_enc4_zipWith_xor (w : Bits) {e : Bits} (he : e.length = 7) :
    syn7 ((enc4 w).zipWith xor e) = syn7 e := by
  rw [syn7_zipWith_xor (enc4_length w) he, syn7_enc4, zipWith_xor_zeros (syn7_length e)]

/-- The syndrome of the error at one position: a column of the parity check (R131). -/
def errorSyndrome (p : Nat) : Bits := syn7 (flipBit (List.replicate 7 false) p)

/-- A flip adds its column to the syndrome. -/
theorem syn7_flipBit {v : Bits} (hv : v.length = 7) (p : Nat) :
    syn7 (flipBit v p) = (syn7 v).zipWith xor (errorSyndrome p) := by
  rw [flipBit_eq_zipWith_xor hv, syn7_zipWith_xor hv (by simp), errorSyndrome]

/-- One flip in a codeword shows its column (R131). -/
theorem syn7_flipBit_enc4 (w : Bits) (p : Nat) : syn7 (flipBit (enc4 w) p) = errorSyndrome p := by
  rw [syn7_flipBit (enc4_length w), syn7_enc4, errorSyndrome, zipWith_xor_zeros (syn7_length _)]

/-- The columns of the seven positions are nonzero (R131). -/
theorem errorSyndrome_ne_zeros {p : Nat} (hp : p < 7) : errorSyndrome p ≠ List.replicate 3 false := by
  revert p; decide

/-- The columns of the seven positions are different (R133 (e)). -/
theorem errorSyndrome_injective {p q : Nat} (hp : p < 7) (hq : q < 7) (h : errorSyndrome p = errorSyndrome q) : p = q := by
  have hcolumns : ∀ p < 7, ∀ q < 7, errorSyndrome p = errorSyndrome q → p = q := by decide
  exact hcolumns p hp q hq h

/-- An error is detected exactly when the syndrome is nonzero (R126). -/
theorem syndromeError_eq_true_iff (v : Bits) : syndromeError (syn7 v) = true ↔ syn7 v ≠ List.replicate 3 false := by
  have hbits : ∀ s2 s1 s0, syndromeError [s2, s1, s0] = true ↔ [s2, s1, s0] ≠ List.replicate 3 false := by decide
  obtain ⟨s2, s1, s0, hs⟩ := List.length_eq_three.1 (syn7_length v)
  rw [hs, hbits]

/-! ### The decoder on blocks of 7 bits and on others -/

/-- A block of 7 bits decodes to its first four, whatever the syndrome (R127, R134). -/
theorem dec7_of_length {v : Bits} (hv : v.length = 7) : dec7 v = ⟨v.take 4, syndromeError (syn7 v), false⟩ := if_pos hv

/-- Any other block is malformed (R130). -/
theorem dec7_of_length_ne {v : Bits} (hv : v.length ≠ 7) : dec7 v = ⟨List.replicate 4 false, true, true⟩ := if_neg hv

/-- The decoder detects an error in 7 bits exactly when their syndrome is nonzero (R126). -/
theorem dec7_errorDetected_iff {v : Bits} (hv : v.length = 7) :
    (dec7 v).errorDetected = true ↔ syn7 v ≠ List.replicate 3 false := by
  rw [dec7_of_length hv, syndromeError_eq_true_iff]

/-- A codeword's first four bits are its information bits (R123). -/
theorem enc4_take_four {w : Bits} (hw : w.length = 4) : (enc4 w).take 4 = w := by
  obtain ⟨i3, i2, i1, i0, rfl⟩ := List.length_eq_four.1 hw
  rfl

/-- Decoding undoes encoding (R133 (a)). -/
theorem dec7_enc4 {w : Bits} (hw : w.length = 4) : dec7 (enc4 w) = ⟨w, false, false⟩ := by
  rw [dec7_of_length (enc4_length w), enc4_take_four hw, syn7_enc4]
  rfl

/-- Every single error is detected and none is corrected (R133 (b)). -/
theorem dec7_flipBit_enc4 (w : Bits) {p : Nat} (hp : p < 7) :
    dec7 (flipBit (enc4 w) p) = ⟨(flipBit (enc4 w) p).take 4, true, false⟩ := by
  have herr : syndromeError (syn7 (flipBit (enc4 w) p)) = true := by
    rw [syndromeError_eq_true_iff, syn7_flipBit_enc4]
    exact errorSyndrome_ne_zeros hp
  rw [dec7_of_length (by simp), herr]

/-- Every double error is detected: two different columns do not add up to zero (R133 (c)). -/
theorem dec7_flipBit_flipBit_enc4 (w : Bits) {p q : Nat} (hp : p < 7) (hq : q < 7) (hpq : p ≠ q) :
    (dec7 (flipBit (flipBit (enc4 w) p) q)).errorDetected = true := by
  rw [dec7_errorDetected_iff (by simp), syn7_flipBit (by simp), syn7_flipBit_enc4]
  exact fun hzero => hpq (errorSyndrome_injective hp hq (eq_of_zipWith_xor_eq_zeros (syn7_length _) (syn7_length _) hzero))

/-! ### One block carried in one byte -/

/-- A byte that holds a bit sequence and its zero pads is what the sequence packs into (30_encoding.md R65). -/
theorem pack_eq_singleton {s : Bits} {b : Byte} (h : byteBits b = s ++ List.replicate ((8 - s.length % 8) % 8) false) :
    pack s = [b] := by
  rw [pack, ← h, ← List.append_nil (byteBits b), bitsToBytes_byteBits_append]
  rfl

/-- A block of 4 bits is the high nibble of the byte that carries it. -/
theorem bitOperand_four (b : Byte) : bitOperand 4 [b] = wordBits 4 (b.toNat / 16) := by
  have hbit (k : Nat) : (b.toNat / 16).testBit k = b.getLsbD (k + 4) := Nat.testBit_div_two_pow (i := k) b.toNat (n := 4)
  calc bitOperand 4 [b]
      = (List.range 4).map fun k => b.getLsbD (4 - 1 - k + 4) := rfl
    _ = wordBits 4 (b.toNat / 16) := by simp only [wordBits, hbit]

/-- A block of 7 bits is the byte that carries it without its last bit. -/
theorem bitOperand_seven (b : Byte) : bitOperand 7 [b] =
    [b.getLsbD 7, b.getLsbD 6, b.getLsbD 5, b.getLsbD 4, b.getLsbD 3, b.getLsbD 2, b.getLsbD 1] := rfl

/-- The first four bits of a byte, packed, are the byte with its low nibble cleared. -/
theorem pack_bitOperand_seven_take (b : Byte) : pack ((bitOperand 7 [b]).take 4) = [b &&& 0xF0#8] := by
  apply pack_eq_singleton
  simp [bitOperand_seven, byteBits]

theorem three_bits_lt_eight (x y z : Bool) : 4 * x.toNat + 2 * y.toNat + z.toNat < 8 := by
  revert x y z; decide

/-- The bits of the number of three bits are these bits. -/
theorem wordBits_three (x y z : Bool) : wordBits 3 (4 * x.toNat + 2 * y.toNat + z.toNat) = [x, y, z] := by
  revert x y z; decide

theorem syndromeOfByte_lt (b : Byte) : syndromeOfByte b < 8 := three_bits_lt_eight ..

/-- The syndrome of a byte's block as a number (R125). -/
theorem syn7_bitOperand_seven (b : Byte) : syn7 (bitOperand 7 [b]) = wordBits 3 (syndromeOfByte b) :=
  (wordBits_three ..).symm

/-- The syndrome, packed, stands in the three high bits of its byte (30_encoding.md R65). -/
theorem pack_syn7_bitOperand_seven (b : Byte) :
    pack (syn7 (bitOperand 7 [b])) = [BitVec.ofNat 8 (32 * syndromeOfByte b)] := by
  have hpack : ∀ n < 8, pack (wordBits 3 n) = [BitVec.ofNat 8 (32 * n)] := by decide
  rw [syn7_bitOperand_seven, hpack _ (syndromeOfByte_lt b)]

/-- An error is detected exactly when the syndrome's number is not 0 (R126). -/
theorem syndromeError_bitOperand_seven (b : Byte) :
    syndromeError (syn7 (bitOperand 7 [b])) = decide (syndromeOfByte b ≠ 0) := by
  have herror : ∀ n < 8, syndromeError (wordBits 3 n) = decide (n ≠ 0) := by decide
  rw [syn7_bitOperand_seven, herror _ (syndromeOfByte_lt b)]

/-! ### The codewords -/

/-- The rows of the encoding table (R124). -/
theorem enc4_wordBits {x : Nat} (hx : x < 16) :
    enc4 (wordBits 4 x) = wordBits 7 (codewords.getD x 0) ∧ pack (enc4 (wordBits 4 x)) = [packedCodewords.getD x 0] ∧
      weight (enc4 (wordBits 4 x)) = weights.getD x 0 := by
  revert x; decide

/-- A codeword other than zero has at least three ones (R124). -/
theorem three_le_weight_enc4 {x : Nat} (hx : x < 16) (hne : x ≠ 0) : 3 ≤ weight (enc4 (wordBits 4 x)) := by
  have hweights : ∀ x < 16, x ≠ 0 → 3 ≤ weights.getD x 0 := by decide
  obtain ⟨-, -, hweight⟩ := enc4_wordBits hx
  exact (hweights x hx hne).trans_eq hweight.symm

/-- The patterns without a syndrome are the codewords (R133 (d)). -/
theorem syn7_wordBits_eq_zero_iff {e : Nat} (he : e < 128) : syn7 (wordBits 7 e) = wordBits 3 0 ↔ e ∈ codewords := by
  revert e; decide

/-- The codewords with three ones (R133 (d)). -/
theorem mem_codewords_iff_of_weight_eq_three {e : Nat} (he : e < 128) (hweight : weight (wordBits 7 e) = 3) :
    e ∈ codewords ↔
      support (wordBits 7 e) ∈ [[0, 1, 6], [0, 2, 5], [0, 3, 4], [1, 2, 3], [1, 4, 5], [2, 4, 6], [3, 5, 6]] := by
  revert e; decide

/-! ### ENC, DEC and SYN -/

/-- A request written as a header number and data decodes to the command whose opcode and LEN make the number (30_encoding.md R61). -/
theorem decode_beBytes_append {i : Instr} {opc len : Nat} (hi : i.WellFormed) (hopc : i.opcode.toNat * 2 ^ 28 = opc)
    (hlen : i.len = len) (D : List Byte) : decode (beBytes 4 (opc + len) ++ D) = .ok (i, D) := by
  rw [← hopc, ← hlen, ← encode_eq_beBytes hi, decode_encode_append hi]

/-- A command without draws answers data of its length and changes nothing else. -/
theorem exec_of_response {i : Instr} {s : State} {response : List Byte} (hdraws : s.drawsOf i = 0)
    (hD : s.operand.length = operandBytes i)
    (hresponse : (effectOf i s.operand { s with operand := [] }).1.bytes = response) :
    exec i s = .next (s.after response 0) := by
  rw [exec_eq_after hD, hresponse, hdraws]

/-- A response whose only flag is ERR, clear exactly at number 0, in bytes (30_encoding.md R67). -/
theorem bytes_of_errorUnlessZero (opc : BitVec 4) (n rlen : Nat) (data : List Byte) :
    Response.bytes { opc := opc, rc := .ok, flags := Flags.error (decide (n ≠ 0)), rlen := rlen, data := data } =
      wire (if n = 0 then opc.toNat * 2 ^ 28 else opc.toNat * 2 ^ 28 + 2 ^ 16) rlen data := by
  rw [bytes_eq_wire, status_toNat]
  by_cases hzero : n = 0 <;> simp [hzero, Flags.error, Flags.clear, OutcomeCode.code]

/-- ENC's response, in bytes: the table's row for a block of 4 bits, MALF and ERR for any other (R128, R129). -/
theorem effectOf_enc_bytes {len : Nat} {D : List Byte} (hD : D.length = (len + 7) / 8) (t : State) :
    (effectOf (.enc len) D t).1.bytes =
      if len = 4 then wire 0x30000000 7 [packedCodewords.getD ((D.headD 0).toNat / 16) 0] else wire 0x30030000 7 [0x00] := by
  rw [bytes_eq_wire, status_toNat]
  by_cases hfour : len = 4
  · subst hfour
    obtain ⟨b, rfl⟩ := List.length_eq_one_iff.1 hD
    obtain ⟨-, hpacked, -⟩ := enc4_wordBits (x := b.toNat / 16) (by have := b.isLt; omega)
    simp only [effectOf, if_true, bitOperand_four, hpacked]
    rfl
  · simp only [effectOf, if_neg hfour]
    rfl

/-- DEC's response, in bytes: the first four of 7 bits and ERR by their syndrome, MALF and ERR for any other block (R130). -/
theorem effectOf_dec_bytes {len : Nat} {D : List Byte} (hD : D.length = (len + 7) / 8) (t : State) :
    (effectOf (.dec len) D t).1.bytes =
      if len = 7 then wire (if syndromeOfByte (D.headD 0) = 0 then 0x40000000 else 0x40010000) 4 [D.headD 0 &&& 0xF0#8]
      else wire 0x40030000 4 [0x00] := by
  have hlength := bitOperand_length len D hD
  by_cases hseven : len = 7
  · subst hseven
    obtain ⟨b, rfl⟩ := List.length_eq_one_iff.1 hD
    rw [List.headD_cons]
    simp only [effectOf, if_true, dec7_of_length hlength, pack_bitOperand_seven_take, syndromeError_bitOperand_seven]
    exact bytes_of_errorUnlessZero ..
  · simp only [effectOf, if_neg hseven, dec7_of_length_ne (hlength.trans_ne hseven)]
    rw [bytes_eq_wire, status_toNat]
    rfl

/-- SYN's response, in bytes: the syndrome of 7 bits and ERR by it, MALF and ERR for any other block (R132). -/
theorem effectOf_syn_bytes {len : Nat} {D : List Byte} (hD : D.length = (len + 7) / 8) (t : State) :
    (effectOf (.syn len) D t).1.bytes =
      if len = 7 then wire (if syndromeOfByte (D.headD 0) = 0 then 0x50000000 else 0x50010000) 3
        [BitVec.ofNat 8 (32 * syndromeOfByte (D.headD 0))]
      else wire 0x50030000 3 [0x00] := by
  by_cases hseven : len = 7
  · subst hseven
    obtain ⟨b, rfl⟩ := List.length_eq_one_iff.1 hD
    rw [List.headD_cons]
    simp only [effectOf, if_true, pack_syn7_bitOperand_seven, syndromeError_bitOperand_seven]
    exact bytes_of_errorUnlessZero ..
  · simp only [effectOf, if_neg hseven]
    rw [bytes_eq_wire, status_toNat]
    rfl

end Sys2Proof.Machine

namespace Sys2Proof.Proofs

open Sys2Proof.Machine

/-- Settles O29: a block of 4 bits is the high nibble of its byte and takes the row of the table; any other is malformed. -/
theorem encAnswersTheCodeword : Obligations.EncAnswersTheCodeword :=
  fun len s hlen hD => ⟨decode_beBytes_append (i := .enc len) hlen (by simp [Instr.opcode]) rfl s.operand,
    exec_of_response (i := .enc len) rfl hD (effectOf_enc_bytes hD _)⟩

/-- Settles O30: a block of 7 bits is decoded uncorrected; any other is malformed. -/
theorem decAnswersTheUncorrectedBits : Obligations.DecAnswersTheUncorrectedBits :=
  fun len s hlen hD => ⟨decode_beBytes_append (i := .dec len) hlen (by simp [Instr.opcode]) rfl s.operand,
    exec_of_response (i := .dec len) rfl hD (effectOf_dec_bytes hD _)⟩

/-- Settles O31: the syndrome of a block of 7 bits is the number of its byte; any other is malformed. -/
theorem synAnswersTheSyndrome : Obligations.SynAnswersTheSyndrome :=
  fun len s hlen hD => ⟨decode_beBytes_append (i := .syn len) hlen (by simp [Instr.opcode]) rfl s.operand,
    exec_of_response (i := .syn len) rfl hD (effectOf_syn_bytes hD _)⟩

/-- Settles O25: the rows of the table, and the least weight read off its weights. -/
theorem encodingTable : Obligations.EncodingTable :=
  ⟨fun _ hx => enc4_wordBits hx, fun _ hx hne => three_le_weight_enc4 hx hne, rfl⟩

/-- Settles O26: the syndrome is linear and that of a codeword is zero. -/
theorem syndromeOfSingleErrors : Obligations.SyndromeOfSingleErrors :=
  ⟨fun _ _ _ _ => syn7_enc4_zipWith_xor _ (wordBits_length 7 _), by decide⟩

/-- Settles O27: (a) to (c) by the syndrome of the errors, (d) by the patterns without a syndrome, (e) by the seven different columns. -/
theorem lawsOfTheCode : Obligations.LawsOfTheCode :=
  ⟨fun _ _ => dec7_enc4 (wordBits_length 4 _), fun _ _ _ hp => dec7_flipBit_enc4 _ hp,
    fun _ _ _ hp _ hq hpq => dec7_flipBit_flipBit_enc4 _ hp hq hpq,
    fun _ he hweight => (syn7_wordBits_eq_zero_iff he).trans (mem_codewords_iff_of_weight_eq_three he hweight),
    fun _ he => syn7_wordBits_eq_zero_iff he, fun _ hp _ hq hsyn => errorSyndrome_injective hp hq hsyn⟩

end Sys2Proof.Proofs

/-! PROOFS. The noise function by its two checks, a flip as an operation on bits and on the bytes that carry them, and the command NOISE
(42_noise.md R150 to R157). -/

namespace Sys2Proof.Machine

open Sys2Proof.Claims

/-! ### Draws -/

/-- A unit draw lies below `2^F` (R150). -/
theorem unitAt_lt (s : State) (n : Nat) : s.unitAt n < 2 ^ s.fracBits := Nat.mod_lt _ (by positivity)

/-- A drawn flip position lies in the frame (R151). -/
theorem flipAt_lt (s : State) (n : Nat) : s.flipAt n < 1960 := Nat.mod_lt _ (by decide)

/-! ### One flip -/

/-- A flip changes the bit at its position and no other (R155). -/
theorem flipBit_getElem? (e : Bits) (K k : Nat) : (flipBit e K)[k]? = (e[k]?).map fun b => if k = K then !b else b := by
  rw [flipBit, List.getElem?_modify]
  by_cases hk : k = K
  · simp [hk]
  · simp [hk, Ne.symm hk]

/-- A flip inside the sequence is seen. -/
theorem flipBit_ne_self {e : Bits} {K : Nat} (hK : K < e.length) : flipBit e K ≠ e := by
  intro hself
  have hbit := flipBit_getElem? e K K
  rw [hself, List.getElem?_eq_getElem hK] at hbit
  simp at hbit

/-- Bit k of a byte in stream order is flipped by the mask with that bit alone (20_memory.md R42). -/
theorem byteBits_xor_mask (b : Byte) {k : Nat} (hk : k < 8) : byteBits (b ^^^ (0x80#8 >>> k)) = flipBit (byteBits b) k := by
  have hmask : ∀ b : Byte, ∀ k < 8, byteBits (b ^^^ (0x80#8 >>> k)) = flipBit (byteBits b) k := by decide +kernel
  exact hmask b k hk

/-- A flip among the first eight bits is a flip in the first byte. -/
theorem flipBit_byteBits_append (b : Byte) (v : Bits) {k : Nat} (hk : k < 8) :
    flipBit (byteBits b ++ v) k = byteBits (b ^^^ (0x80#8 >>> k)) ++ v := by
  rw [byteBits_xor_mask b hk]
  interval_cases k <;> rfl

/-- A flip behind the first eight bits leaves the first byte. -/
theorem flipBit_byteBits_append_add_eight (b : Byte) (v : Bits) (k : Nat) :
    flipBit (byteBits b ++ v) (k + 8) = byteBits b ++ flipBit v k := rfl

/-- A flip in the bits of some bytes is a flip in the byte that carries the bit. -/
theorem bytesToBits_flipStreamBit (D : List Byte) (k : Nat) :
    bytesToBits (flipStreamBit D k) = flipBit (bytesToBits D) k := by
  induction D generalizing k with
  | nil => simp [flipStreamBit, flipBit]
  | cons b D ih =>
    by_cases hk : k < 8
    · rw [bytesToBits_cons, flipBit_byteBits_append b _ hk, flipStreamBit, Nat.div_eq_of_lt hk, Nat.mod_eq_of_lt hk,
        List.modify_zero_cons, bytesToBits_cons]
    · obtain ⟨j, rfl⟩ := Nat.exists_eq_add_of_le' (not_lt.1 hk)
      have hflip : flipStreamBit (b :: D) (j + 8) = b :: flipStreamBit D j := by simp [flipStreamBit]
      rw [hflip, bytesToBits_cons, bytesToBits_cons, flipBit_byteBits_append_add_eight, ih]

/-! ### The outcomes of the noise function -/

/-- The noise function by its two checks: the loss check on the first draw, the error check on the second, the flip position from the
third (R152, R153). -/
theorem noise_eq (e : Bits) (s : State) : noise e s =
    if s.unitAt 0 ≤ s.cfgTR then (.lost, { s with source := s.source.skip 1 })
    else if s.unitAt 1 ≤ s.cfgTP then (.frame (flipBit e (s.flipAt 2)), { s with source := s.source.skip 3 })
    else (.frame e, { s with source := s.source.skip 2 }) := by
  split_ifs with hloss herror
  · exact noise_lost e s hloss
  · exact noise_flipped e s hloss herror
  · exact noise_kept e s hloss herror

/-- What the noise function makes of a frame does not depend on the operand that the state holds. -/
theorem noise_fst_congr_operand (e : Bits) (s : State) (operand : List Byte) :
    (noise e { s with operand := operand }).1 = (noise e s).1 := by
  simp only [noise_eq, apply_ite Prod.fst]
  rfl

/-- The frame is lost exactly when the loss check passes (R153 step 1). -/
theorem noise_eq_lost_iff (e : Bits) (s : State) : (noise e s).1 = .lost ↔ s.unitAt 0 ≤ s.cfgTR := by
  rw [noise_eq]
  split_ifs with hloss herror <;> simp [hloss]

/-- A frame of 1960 bits that is not lost comes out unchanged exactly when the error check fails (R153 steps 2 and 3). -/
theorem noise_eq_frame_self_iff {e : Bits} {s : State} (he : e.length = 1960) (hkept : (noise e s).1 ≠ .lost) :
    (noise e s).1 = .frame e ↔ ¬ s.unitAt 1 ≤ s.cfgTP := by
  have hloss := (noise_eq_lost_iff e s).not.1 hkept
  by_cases herror : s.unitAt 1 ≤ s.cfgTP
  · have hflip := flipBit_ne_self (K := s.flipAt 2) (he ▸ flipAt_lt s 2)
    simp [noise_flipped e s hloss herror, hflip, herror]
  · simp [noise_kept e s hloss herror, herror]

/-- Where the error check passes, a frame is lost or its drawn bit is flipped (R153 steps 1 and 2). -/
theorem noise_lost_or_flipped (e : Bits) {s : State} (herror : s.unitAt 1 ≤ s.cfgTP) :
    (noise e s).1 = .lost ∨ (noise e s).1 = .frame (flipBit e (s.flipAt 2)) := by
  by_cases hloss : s.unitAt 0 ≤ s.cfgTR
  · exact .inl (by rw [noise_lost e s hloss])
  · exact .inr (by rw [noise_flipped e s hloss herror])

/-! ### The draws of a step -/

/-- The step on a request that decodes to a command. -/
theorem step_of_decode_eq_ok {s : State} {request D : List Byte} {later : List (List Byte)} {i : Instr}
    (hreq : s.requests = request :: later) (hd : decode request = .ok (i, D)) :
    step s = exec i { s with requests := later, operand := D } := by
  simp [step, fetch, hreq, hd]

/-- What stands at the ports does not change how many draws a command takes. -/
theorem drawsOf_congr_ports (s : State) (requests : List (List Byte)) (operand : List Byte) (i : Instr) :
    State.drawsOf { s with requests := requests, operand := operand } i = s.drawsOf i := by
  cases i <;> rfl

/-- A command's step takes the command's draws (R152). -/
theorem step_source_of_decode_eq_ok {s t : State} {request D : List Byte} {later : List (List Byte)} {i : Instr}
    (hreq : s.requests = request :: later) (hd : decode request = .ok (i, D)) (h : step s = .next t) :
    t.source = s.source.skip (s.drawsOf i) := by
  rw [step_of_decode_eq_ok hreq hd] at h
  obtain ⟨-, rfl⟩ := exec_next h
  rw [after_source, drawsOf_congr_ports]

/-- The step on a request that is no command takes no draw (R152). -/
theorem step_source_of_decode_eq_error {s t : State} {request : List Byte} {later : List (List Byte)} {r : Reject}
    (hreq : s.requests = request :: later) (hd : decode request = .error r) (h : step s = .next t) :
    t.source = s.source := by
  cases r with
  | shortHeader => simp [step, fetch, hreq, hd] at h
  | illegalOpcode w =>
    obtain ⟨-, rfl⟩ := performIllegal_next ((step_of_decode_eq_error hreq (.inl hd)).symm.trans h)
    rfl
  | reservedField w =>
    obtain ⟨-, rfl⟩ := performIllegal_next ((step_of_decode_eq_error hreq (.inr hd)).symm.trans h)
    rfl

/-! ### NOISE -/

/-- The response to a frame that is the bits of some bytes, in bytes (R156). -/
theorem noiseResponse_frame_bytes (D : List Byte) :
    (noiseResponse (.frame (bytesToBits D))).bytes = wire 0x60000000 1960 D := by
  rw [bytes_eq_wire, status_toNat]
  simp only [noiseResponse, pack_bytesToBits]
  rfl

/-- The response to a lost frame, in bytes (R156). -/
theorem noiseResponse_lost_bytes : (noiseResponse .lost).bytes = wire 0x61000000 0 [] := by
  rw [bytes_eq_wire, status_toNat]
  rfl

/-- NOISE refuses a length other than 1960 without a draw (R156). -/
theorem exec_noise_of_len_ne {len : Nat} {s : State} (hlen : len ≠ 1960) (hD : s.operand.length = (len + 7) / 8) :
    exec (.noise len) s = .next (s.after (wire 0x62000000 0 []) 0) := by
  have hcode : len ≠ Config.encodedBitLength := hlen
  refine exec_of_response (if_neg hlen) hD ?_
  simp only [effectOf, if_neg hcode]
  rw [bytes_eq_wire, status_toNat]
  rfl

/-- NOISE on a frame of 245 bytes answers what the noise function makes of their bits (R156). -/
theorem exec_noise_frame {s : State} (hD : s.operand.length = 245) :
    exec (.noise 1960) s =
      .next (s.after (noiseResponse (noise (bytesToBits s.operand) s).1).bytes s.noiseDraws) := by
  have hbits : bitOperand 1960 s.operand = bytesToBits s.operand := by rw [← bitOperand_eight_mul_length, hD]
  rw [exec_eq_after (i := .noise 1960) hD, ← noise_fst_congr_operand _ s [], ← hbits]
  rfl

end Sys2Proof.Machine

namespace Sys2Proof.Proofs

open Sys2Proof.Machine

/-- Settles O33: the noise function by its two checks, a step by what it decodes. -/
theorem drawOrderAndCountAreExact : Obligations.DrawOrderAndCountAreExact :=
  ⟨noise_eq, fun _ _ _ _ _ _ hreq hd h => step_source_of_decode_eq_ok hreq hd h,
    fun _ _ _ _ _ hreq hd h => step_source_of_decode_eq_error hreq hd h⟩

/-- Settles O34: each corner puts a draw's bounds on one side of its check. -/
theorem thresholdCornerCases : Obligations.ThresholdCornerCases := by
  intro e s he
  have hloss := noise_eq_lost_iff e s
  have h0 := unitAt_lt s 0
  have h1 := unitAt_lt s 1
  refine ⟨fun hTR => hloss.2 (hTR ▸ h0.le), fun hTR => by rw [hloss, hTR, Nat.le_zero],
    fun hTP => noise_lost_or_flipped e (hTP ▸ h1.le), fun hTP hkept => ?_, fun hU => hloss.2 hU.le,
    fun hU => hloss.not.2 (by omega), flipBit_getElem? e 0, flipBit_getElem? e 1959⟩
  rw [noise_eq_frame_self_iff he hkept, hTP, Nat.le_zero]

/-- Settles O35: a frame's response by the three outcomes of the noise function, a flip in the bits by the flip in the bytes. -/
theorem noiseAnswersTheFrameWithAtMostOneFlip : Obligations.NoiseAnswersTheFrameWithAtMostOneFlip := by
  intro len s hlen hD
  refine ⟨decode_beBytes_append (i := .noise len) hlen (by simp [Instr.opcode]) rfl s.operand, ?_⟩
  split_ifs with hframe hloss herror
  · exact exec_noise_of_len_ne hframe hD
  all_goals
    obtain rfl : len = 1960 := not_not.1 hframe
    rw [exec_noise_frame hD, State.noiseDraws]
  · rw [noise_lost _ _ hloss, noiseResponse_lost_bytes, if_pos hloss]
  · rw [noise_flipped _ _ hloss herror, ← bytesToBits_flipStreamBit, noiseResponse_frame_bytes, if_neg hloss, if_pos herror]
  · rw [noise_kept _ _ hloss herror, noiseResponse_frame_bytes, if_neg hloss, if_neg herror]

end Sys2Proof.Proofs

/-! PROOFS. The blocks of a frame and of its decoding (43_channel.md R172 to R177), what one flip does to them (R182, R183), the pipeline
`ProcessSegment` by its four outcomes (R170 to R181), and the command PSEG (R179). -/

namespace Sys2Proof.Machine

open Sys2Proof.Claims

/-! ### Slices and the frame in blocks -/

theorem slice_length_le (r : Bits) (a n : Nat) : (slice r a n).length ≤ n := List.length_take_le ..

/-- What a slice is, element by element. -/
theorem slice_eq_of_getElem? {r v : Bits} {a n : Nat} (hv : v.length ≤ n) (h : ∀ p < n, r[a + p]? = v[p]?) :
    slice r a n = v := by
  refine List.ext_getElem? fun p => ?_
  by_cases hp : p < n
  · rw [slice_getElem? _ _ hp, h p hp]
  · have hr := slice_length_le r a n
    rw [List.getElem?_eq_none (by omega), List.getElem?_eq_none (by omega)]

theorem encodeBlocks_length (n : Nat) (b : Bits) : (encodeBlocks n b).length = 7 * n := by
  induction n generalizing b with
  | zero => rfl
  | succ n ih => rw [encodeBlocks, List.length_append, enc4_length, ih]; omega

@[simp] theorem encodeFrame_length (b : Bits) : (encodeFrame b).length = 1960 := encodeBlocks_length 280 b

/-- Block j of the frame is the codeword of block j of the payload (R173). -/
theorem slice_encodeFrame (b : Bits) {j : Nat} (hj : j < 280) :
    slice (encodeFrame b) (7 * j) 7 = enc4 (slice b (4 * j) 4) :=
  slice_eq_of_getElem? (enc4_length _).le fun _ hp => encodeFrame_getElem? b hj hp

/-! ### The decoding of a received frame -/

/-- Element j of the decoding is that of block j of the received bits (R175). -/
theorem decodeBlocks_getElem? {n : Nat} (r : Bits) {j : Nat} (hj : j < n) :
    (decodeBlocks n r)[j]? = some (dec7 (slice r (7 * j) 7)) := by
  induction n generalizing r j with
  | zero => omega
  | succ n ih =>
    rw [decodeBlocks, Config.codedBitsPerBlock]
    cases j with
    | zero => rfl
    | succ j =>
      have hnext : 7 + 7 * j = 7 * (j + 1) := by omega
      rw [List.getElem?_cons_succ, ih (r.drop 7) (by omega), slice_drop, hnext]

/-- The same of the frame's 280 blocks. -/
theorem decodeFrame_getElem? (r : Bits) {j : Nat} (hj : j < 280) :
    (decodeFrame r)[j]? = some (dec7 (slice r (7 * j) 7)) :=
  decodeBlocks_getElem? r hj

theorem decodeBlocks_length (n : Nat) (r : Bits) : (decodeBlocks n r).length = n := by
  induction n generalizing r with
  | zero => rfl
  | succ n ih => rw [decodeBlocks, List.length_cons, ih]

@[simp] theorem decodeFrame_length (r : Bits) : (decodeFrame r).length = 280 := decodeBlocks_length 280 r

/-- Every block decodes to four bits, also a malformed one (41_blockcoder.md R127, R130). -/
@[simp] theorem dec7_info_length (v : Bits) : (dec7 v).info.length = 4 := by
  by_cases hv : v.length = 7
  · rw [dec7_of_length hv, List.length_take, hv]
    rfl
  · rw [dec7_of_length_ne hv, List.length_replicate]

@[simp] theorem infoBits_cons (d : Decoded) (blocks : List Decoded) : infoBits (d :: blocks) = d.info ++ infoBits blocks := rfl

theorem infoBits_decodeBlocks_length (n : Nat) (r : Bits) : (infoBits (decodeBlocks n r)).length = 4 * n := by
  induction n generalizing r with
  | zero => rfl
  | succ n ih => rw [decodeBlocks, infoBits_cons, List.length_append, dec7_info_length, ih]; omega

/-- Decoding selects bits and corrects none: decoded bit 4j+p is received bit 7j+p (R175, R177; 41_blockcoder.md R134). -/
theorem infoBits_decodeBlocks_getElem? {n : Nat} {r : Bits} (hr : r.length = 7 * n) {j p : Nat} (hj : j < n) (hp : p < 4) :
    (infoBits (decodeBlocks n r))[4 * j + p]? = r[7 * j + p]? := by
  induction n generalizing r j with
  | zero => omega
  | succ n ih =>
    rw [decodeBlocks, Config.codedBitsPerBlock, infoBits_cons]
    cases j with
    | zero =>
      have hblock : (r.take 7).length = 7 := by rw [List.length_take]; omega
      rw [Nat.mul_zero, Nat.zero_add, List.getElem?_append_left (by rwa [dec7_info_length]),
        dec7_of_length hblock, List.getElem?_take_of_lt hp, List.getElem?_take_of_lt (by omega)]
    | succ j =>
      have hskip : 4 * (j + 1) + p - 4 = 4 * j + p := by omega
      have hnext : 7 + (7 * j + p) = 7 * (j + 1) + p := by omega
      rw [List.getElem?_append_right (by rw [dec7_info_length]; omega), dec7_info_length, hskip,
        ih (by rw [List.length_drop]; omega) (by omega), List.getElem?_drop, hnext]

/-- Two sequences of 1120 bits that agree on every block of 4 are equal. -/
theorem eq_of_blocks_eq {b d : Bits} (hb : b.length = 1120) (hd : d.length = 1120)
    (h : ∀ j < 280, ∀ p < 4, b[4 * j + p]? = d[4 * j + p]?) : b = d := by
  refine List.ext_getElem? fun k => ?_
  by_cases hk : k < 1120
  · have hbit := h (k / 4) (by omega) (k % 4) (by omega)
    rwa [Nat.div_add_mod] at hbit
  · rw [List.getElem?_eq_none (by omega), List.getElem?_eq_none (by omega)]

/-- A sequence of 1120 bits is the decoding of a frame when its bit 4j+p is frame bit 7j+p. -/
theorem infoBits_decodeFrame_eq {r d : Bits} (hr : r.length = 1960) (hd : d.length = 1120)
    (h : ∀ j < 280, ∀ p < 4, r[7 * j + p]? = d[4 * j + p]?) : infoBits (decodeFrame r) = d :=
  eq_of_blocks_eq (infoBits_decodeBlocks_length 280 r) hd fun j hj p hp =>
    (infoBits_decodeBlocks_getElem? hr hj hp).trans (h j hj p hp)

/-! ### The decoded bits of a frame, without and with a flip -/

/-- Frame bit 7j+p with p < 4 is payload bit 4j+p (20_memory.md R44). -/
theorem encodeFrame_getElem?_infoBit {b : Bits} (hb : b.length = 1120) {j p : Nat} (hj : j < 280) (hp : p < 4) :
    (encodeFrame b)[7 * j + p]? = b[4 * j + p]? := by
  rw [encodeFrame_getElem? b hj (by omega), enc4_getElem?_info (slice_length (by omega)) hp, slice_getElem? b _ hp]

/-- A frame decodes to the payload bits it encodes (R181). -/
theorem infoBits_decodeFrame_encodeFrame {b : Bits} (hb : b.length = 1120) : infoBits (decodeFrame (encodeFrame b)) = b :=
  infoBits_decodeFrame_eq (encodeFrame_length b) hb fun _ hj _ hp => encodeFrame_getElem?_infoBit hb hj hp

/-- A flip at an information bit of the frame flips that payload bit, a flip at a parity bit none (R183). -/
theorem infoBits_decodeFrame_flipBit {b : Bits} (hb : b.length = 1120) (K : Nat) :
    infoBits (decodeFrame (flipBit (encodeFrame b) K)) =
      if K % 7 < 4 then flipBit b (4 * (K / 7) + K % 7) else b := by
  refine infoBits_decodeFrame_eq (by simp) (by split_ifs <;> simp [hb]) fun j hj p hp => ?_
  rw [flipBit_getElem?, encodeFrame_getElem?_infoBit hb hj hp]
  by_cases hinfo : K % 7 < 4
  · have hplace : 7 * j + p = K ↔ 4 * j + p = 4 * (K / 7) + K % 7 := by omega
    simp only [if_pos hinfo, flipBit_getElem?, hplace]
  · have hplace : 7 * j + p ≠ K := by omega
    simp [hinfo, hplace]

/-! ### The flags of a frame's blocks, without and with a flip -/

/-- A flip inside a slice is a flip of the slice. -/
theorem slice_flipBit_add (r : Bits) (a n p : Nat) :
    slice (flipBit r (a + p)) a n = flipBit (slice r a n) p := by
  refine slice_eq_of_getElem? ((flipBit_length ..).trans_le (slice_length_le r a n)) fun k hk => ?_
  simp only [slice_getElem? _ _ hk, flipBit_getElem?, Nat.add_left_cancel_iff]

/-- A flip outside a slice leaves the slice. -/
theorem slice_flipBit_of_notMem (r : Bits) {a n K : Nat} (hK : K < a ∨ a + n ≤ K) :
    slice (flipBit r K) a n = slice r a n := by
  refine slice_eq_of_getElem? (slice_length_le r a n) fun k hk => ?_
  have hne : a + k ≠ K := by omega
  simp [slice_getElem? _ _ hk, flipBit_getElem?, hne]

/-- No block of an unflipped frame is flagged (R182). -/
theorem decodeFrame_encodeFrame_errorDetected {b : Bits} (hb : b.length = 1120) {j : Nat} (hj : j < 280) :
    ((decodeFrame (encodeFrame b))[j]?).map Decoded.errorDetected = some false := by
  rw [decodeFrame_getElem? _ hj, slice_encodeFrame b hj, dec7_enc4 (slice_length (by omega))]
  rfl

/-- After a flip at frame bit K block K div 7 is flagged and no other (R182). -/
theorem decodeFrame_flipBit_errorDetected {b : Bits} (hb : b.length = 1120) (K : Nat) {j : Nat} (hj : j < 280) :
    ((decodeFrame (flipBit (encodeFrame b) K))[j]?).map Decoded.errorDetected = some (decide (j = K / 7)) := by
  by_cases hblock : j = K / 7
  · have hp : K % 7 < 7 := Nat.mod_lt _ (by decide)
    have hflip : slice (flipBit (encodeFrame b) K) (7 * j) 7 = flipBit (enc4 (slice b (4 * j) 4)) (K % 7) := by
      rw [← slice_encodeFrame b hj, ← slice_flipBit_add, hblock, Nat.div_add_mod]
    rw [decodeFrame_getElem? _ hj, hflip, dec7_flipBit_enc4 _ hp, decide_eq_true hblock]
    rfl
  · have hsame : slice (flipBit (encodeFrame b) K) (7 * j) 7 = slice (encodeFrame b) (7 * j) 7 :=
      slice_flipBit_of_notMem _ (by omega)
    rw [decodeFrame_getElem? _ hj, hsame, ← decodeFrame_getElem? _ hj, decodeFrame_encodeFrame_errorDetected hb hj,
      decide_eq_false hblock]

/-- The aggregated flag of a decoded frame is that of one of its 280 blocks (R176). -/
theorem anyError_decodeFrame_iff (r : Bits) : anyError (decodeFrame r) = true ↔
    ∃ j < 280, ((decodeFrame r)[j]?).map Decoded.errorDetected = some true := by
  rw [anyError, List.any_eq_true]
  constructor
  · rintro ⟨d, hd, herr⟩
    obtain ⟨j, hj, hat⟩ := List.mem_iff_getElem.1 hd
    exact ⟨j, by rwa [decodeFrame_length] at hj, by rw [List.getElem?_eq_getElem hj, hat, Option.map_some, herr]⟩
  · rintro ⟨j, -, hj⟩
    obtain ⟨d, hd, herr⟩ := Option.map_eq_some_iff.1 hj
    exact ⟨d, List.mem_of_getElem? hd, herr⟩

/-- An unflipped frame is not flagged (R182). -/
theorem anyError_decodeFrame_encodeFrame {b : Bits} (hb : b.length = 1120) : anyError (decodeFrame (encodeFrame b)) = false := by
  rw [Bool.eq_false_iff, Ne, anyError_decodeFrame_iff]
  rintro ⟨j, hj, herr⟩
  simp [decodeFrame_encodeFrame_errorDetected hb hj] at herr

/-- A flipped frame is flagged (R182). -/
theorem anyError_decodeFrame_flipBit {b : Bits} (hb : b.length = 1120) {K : Nat} (hK : K < 1960) :
    anyError (decodeFrame (flipBit (encodeFrame b) K)) = true := by
  have hblock : K / 7 < 280 := by omega
  exact (anyError_decodeFrame_iff _).2
    ⟨K / 7, hblock, by rw [decodeFrame_flipBit_errorDetected hb K hblock, decide_eq_true rfl]⟩

/-! ### ProcessSegment -/

@[simp] theorem flipPayload_length (payload : List Byte) (K : Nat) : (flipPayload payload K).length = payload.length := by
  unfold flipPayload flipStreamBit
  split_ifs <;> simp

/-- The flipped payload's bits: one information bit flipped, or none (R183). -/
theorem bytesToBits_flipPayload (payload : List Byte) (K : Nat) : bytesToBits (flipPayload payload K) =
    if K % 7 < 4 then flipBit (bytesToBits payload) (4 * (K / 7) + K % 7) else bytesToBits payload := by
  rw [flipPayload, apply_ite bytesToBits, bytesToBits_flipStreamBit]

/-- A frame that decodes to the bits of 140 bytes is delivered as those bytes, the metadata with it (R177, R180). -/
theorem receive_frame {r : Bits} {payload : List Byte} (m : Metadata) (hpayload : payload.length = 140)
    (hinfo : infoBits (decodeFrame r) = bytesToBits payload) :
    receive m (.frame r) = .delivered ⟨payload, m, anyError (decodeFrame r)⟩ := by
  rw [receive, deliver, hinfo, bitsToBytes_bytesToBits, Config.fixedPayloadSize, if_pos hpayload]

/-- A payload of another length is delivered empty and flagged (R171). -/
theorem processSegment_of_length_ne {seg : Segment} (hlen : seg.payload.length ≠ 140) (s : State) :
    (processSegment seg s).1 = .delivered ⟨[], seg.metadata, true⟩ := by
  rw [processSegment, Config.fixedPayloadSize, if_neg hlen, sizeMismatch]

/-- A payload of 140 bytes goes through the noise function as a frame (R170, R174). -/
theorem processSegment_of_length_eq {seg : Segment} (hlen : seg.payload.length = 140) (s : State) :
    (processSegment seg s).1 = receive seg.metadata (noise (encodeFrame (bytesToBits seg.payload)) s).1 := by
  have hbits : (bytesToBits seg.payload).length = 1120 := by rw [bytesToBits_length, hlen]
  rw [processSegment, Config.fixedPayloadSize, Config.payloadBitLength, if_pos hlen, if_pos hbits]

section Outcomes

variable {seg : Segment} {s : State}

/-- The frame is lost where the loss check passes (R174). -/
theorem processSegment_lost (hlen : seg.payload.length = 140) (hloss : s.LosesFrame) : (processSegment seg s).1 = .lost := by
  rw [processSegment_of_length_eq hlen, noise_lost _ _ hloss, receive]

/-- Without loss and flip the payload is delivered as it is, unflagged (R181). -/
theorem processSegment_kept (hlen : seg.payload.length = 140) (hloss : ¬ s.LosesFrame) (hflip : ¬ s.FlipsBit) :
    (processSegment seg s).1 = .delivered ⟨seg.payload, seg.metadata, false⟩ := by
  have hbits : (bytesToBits seg.payload).length = 1120 := by rw [bytesToBits_length, hlen]
  rw [processSegment_of_length_eq hlen, noise_kept _ _ hloss hflip,
    receive_frame _ hlen (infoBits_decodeFrame_encodeFrame hbits), anyError_decodeFrame_encodeFrame hbits]

/-- With a flip the payload is delivered with at most that one bit changed, flagged (R182, R183). -/
theorem processSegment_flipped (hlen : seg.payload.length = 140) (hloss : ¬ s.LosesFrame) (hflip : s.FlipsBit) :
    (processSegment seg s).1 = .delivered ⟨flipPayload seg.payload (s.flipAt 2), seg.metadata, true⟩ := by
  have hbits : (bytesToBits seg.payload).length = 1120 := by rw [bytesToBits_length, hlen]
  have hinfo := (infoBits_decodeFrame_flipBit hbits (s.flipAt 2)).trans (bytesToBits_flipPayload seg.payload _).symm
  rw [processSegment_of_length_eq hlen, noise_flipped _ _ hloss hflip,
    receive_frame _ (by rw [flipPayload_length, hlen]) hinfo, anyError_decodeFrame_flipBit hbits (flipAt_lt s 2)]

/-- What `ProcessSegment` can do: lose a 140-byte payload whose loss check passes, or deliver with the metadata copied (R180). -/
theorem processSegment_cases (seg : Segment) (s : State) :
    ((processSegment seg s).1 = .lost ∧ seg.payload.length = 140 ∧ s.LosesFrame) ∨
    ∃ payload err, (processSegment seg s).1 = .delivered ⟨payload, seg.metadata, err⟩ := by
  by_cases hlen : seg.payload.length = 140
  · by_cases hloss : s.LosesFrame
    · exact .inl ⟨processSegment_lost hlen hloss, hlen, hloss⟩
    · by_cases hflip : s.FlipsBit
      · exact .inr ⟨_, _, processSegment_flipped hlen hloss hflip⟩
      · exact .inr ⟨_, _, processSegment_kept hlen hloss hflip⟩
  · exact .inr ⟨_, _, processSegment_of_length_ne hlen s⟩

/-- A delivered payload of 140 bytes is flagged exactly when a bit was flipped (R182). -/
theorem processSegment_isChannelError_iff {out : Segment} (hlen : seg.payload.length = 140)
    (hout : (processSegment seg s).1 = .delivered out) : out.isChannelError = true ↔ s.FlipsBit := by
  have hloss : ¬ s.LosesFrame := fun hloss => by
    rw [processSegment_lost hlen hloss] at hout
    cases hout
  by_cases hflip : s.FlipsBit
  · rw [processSegment_flipped hlen hloss hflip] at hout
    cases hout
    simp [hflip]
  · rw [processSegment_kept hlen hloss hflip] at hout
    cases hout
    simp [hflip]

end Outcomes

/-! ### PSEG -/

/-- The response to a lost frame, in bytes (R179). -/
theorem segmentResponse_lost_bytes : (segmentResponse .lost).bytes = wire 0x71000000 0 [] := by
  rw [bytes_eq_wire, status_toNat]
  rfl

/-- The response to a delivered segment, in bytes: ERR is its flag, and no other flag is set (R179). -/
theorem segmentResponse_delivered_bytes (out : Segment) : (segmentResponse (.delivered out)).bytes =
    wire (if out.isChannelError then 0x70010000 else 0x70000000) out.payload.length
      (metadataBlock out.metadata ++ out.payload) := by
  rw [bytes_eq_wire, status_toNat]
  cases herr : out.isChannelError <;> simp [segmentResponse, herr, Flags.error, Flags.clear, OutcomeCode.code]

/-- The metadata block written from PSEG's operand is its first 16 bytes (30_encoding.md R70). -/
theorem metadataBlock_segmentOperand {D : List Byte} (hD : 16 ≤ D.length) :
    metadataBlock (segmentOperand D).metadata = D.take 16 := by
  have hblock : readMetadata D = readMetadata (D.take 16) := by simp [readMetadata, List.take_take, List.drop_take]
  rw [segmentOperand, hblock, metadataBlock_readMetadata (by rw [List.length_take]; omega)]

theorem segmentOperand_payload_length {D : List Byte} {len : Nat} (hD : D.length = 16 + len) :
    (segmentOperand D).payload.length = len := by
  rw [segmentOperand, List.length_drop, hD, Nat.add_sub_cancel_left]

/-- PSEG answers with the response to what `ProcessSegment` makes of the operand (R179). -/
theorem effectOf_pseg_fst (len : Nat) (D : List Byte) (t : State) :
    (effectOf (.pseg len) D t).1 = segmentResponse (processSegment (segmentOperand D) t).1 := rfl

/-- A lost 140-byte payload takes one draw (42_noise.md R152). -/
theorem drawsOf_pseg_lost {s : State} (hloss : s.LosesFrame) : s.drawsOf (.pseg 140) = 1 := if_pos hloss

/-- One that is delivered without a flip takes two. -/
theorem drawsOf_pseg_kept {s : State} (hloss : ¬ s.LosesFrame) (hflip : ¬ s.FlipsBit) : s.drawsOf (.pseg 140) = 2 :=
  (if_neg hloss).trans (if_neg hflip)

/-- One that is delivered with a flip takes three. -/
theorem drawsOf_pseg_flipped {s : State} (hloss : ¬ s.LosesFrame) (hflip : s.FlipsBit) : s.drawsOf (.pseg 140) = 3 :=
  (if_neg hloss).trans (if_pos hflip)

section Pseg

variable {len : Nat} {s : State} (hD : s.operand.length = 16 + len)
include hD

/-- PSEG on a lost frame (R179). -/
theorem exec_pseg_of_lost (hlost : (processSegment (segmentOperand s.operand) { s with operand := [] }).1 = .lost) :
    exec (.pseg len) s = .next (s.after (wire 0x71000000 0 []) (s.drawsOf (.pseg len))) := by
  rw [exec_eq_after (i := .pseg len) hD, effectOf_pseg_fst, hlost, segmentResponse_lost_bytes]

/-- PSEG on a delivered payload: the request's metadata block, then the payload (R179, R180). -/
theorem exec_pseg_of_delivered {payload : List Byte} {err : Bool}
    (hout : (processSegment (segmentOperand s.operand) { s with operand := [] }).1 =
      .delivered ⟨payload, (segmentOperand s.operand).metadata, err⟩) :
    exec (.pseg len) s = .next (s.after
      (wire (if err then 0x70010000 else 0x70000000) payload.length (s.operand.take 16 ++ payload))
      (s.drawsOf (.pseg len))) := by
  rw [exec_eq_after (i := .pseg len) hD, effectOf_pseg_fst, hout, segmentResponse_delivered_bytes,
    metadataBlock_segmentOperand (by omega)]

end Pseg

/-! ### The fields of a response in bytes -/

/-- Reading the fields that R180 speaks of back from a response's bytes (30_encoding.md R66, R67). -/
theorem readResponse_wire {S : Nat} (hS : S < 2 ^ 32) (rlen : Nat) (data : List Byte) :
    (readResponse (wire S rlen data)).opc = S / 2 ^ 28 ∧ (readResponse (wire S rlen data)).rc = S / 2 ^ 24 % 16 ∧
    (readResponse (wire S rlen data)).data = data := by
  have hstatus : beValue ((wire S rlen data).take 4) = S := by
    have htake : (wire S rlen data).take 4 = beBytes 4 S := rfl
    rw [htake, beValue_beBytes, Nat.mod_eq_of_lt (by omega)]
  simp only [readResponse, hstatus, true_and]
  rfl

end Sys2Proof.Machine

namespace Sys2Proof.Proofs

open Sys2Proof.Machine

/-- Settles O39: the length of 280 codewords, and each frame bit as a bit of its block's codeword. -/
theorem frameIsTheCodewordsInBlockOrder : Obligations.FrameIsTheCodewordsInBlockOrder :=
  fun b _ => ⟨encodeFrame_length b, fun _ hj _ hp => encodeFrame_getElem? b hj hp⟩

/-- Settles O42: the size check fails before the noise step, so nothing is drawn. -/
theorem psegSizeMismatchIsDeliveredEmpty : Obligations.PsegSizeMismatchIsDeliveredEmpty := by
  intro len s _ hlen hD
  have hpayload := (segmentOperand_payload_length hD).trans_ne hlen
  rw [exec_pseg_of_delivered hD (processSegment_of_length_ne hpayload _), List.append_nil, State.drawsOf, if_neg hlen]
  rfl

/-- Settles O43: the loss check stands before every other. -/
theorem psegLostFrameIsAnsweredLost : Obligations.PsegLostFrameIsAnsweredLost := by
  intro s hD hloss
  rw [exec_pseg_of_lost (len := 140) hD (processSegment_lost (segmentOperand_payload_length hD) hloss),
    drawsOf_pseg_lost hloss]

/-- Settles O44: decoding an unflipped frame undoes the encoding. -/
theorem psegWithoutNoiseDeliversThePayload : Obligations.PsegWithoutNoiseDeliversThePayload := by
  intro s hD hloss hflip
  have hpayload : (segmentOperand s.operand).payload.length = 140 := segmentOperand_payload_length hD
  rw [exec_pseg_of_delivered (len := 140) hD (processSegment_kept hpayload hloss hflip), hpayload,
    drawsOf_pseg_kept hloss hflip, segmentOperand, List.take_append_drop]
  rfl

/-- Settles O45: decoding selects the four information bits of each block, so it keeps the flip or leaves it out. -/
theorem psegFlipLandsInOnePayloadBit : Obligations.PsegFlipLandsInOnePayloadBit := by
  intro s hD hloss hflip
  have hpayload : (segmentOperand s.operand).payload.length = 140 := segmentOperand_payload_length hD
  rw [exec_pseg_of_delivered (len := 140) hD (processSegment_flipped hpayload hloss hflip), flipPayload_length, hpayload,
    drawsOf_pseg_flipped hloss hflip]
  rfl

/-- Settles O46: one flip gives its own block a nonzero syndrome and leaves the other blocks codewords. -/
theorem errorFlagMeansAFlip : Obligations.ErrorFlagMeansAFlip :=
  ⟨fun _ _ _ hlen hout => processSegment_isChannelError_iff hlen hout,
    fun _ K _ hb _ hj => decodeFrame_flipBit_errorDetected hb K hj,
    fun _ _ hb hj => decodeFrame_encodeFrame_errorDetected hb hj⟩

/-- Settles O47: every delivery copies the metadata, and the one other outcome is the loss of a 140-byte payload's frame. -/
theorem psegPassesTheMetadataThrough : Obligations.PsegPassesTheMetadataThrough := by
  intro len s hD
  obtain ⟨hlost, hlen, hloss⟩ | ⟨payload, err, hout⟩ :=
    processSegment_cases (segmentOperand s.operand) { s with operand := [] }
  · obtain ⟨hopc, hrc, hdata⟩ := readResponse_wire (S := 0x71000000) (by decide) 0 []
    refine ⟨_, exec_pseg_of_lost hD hlost, hopc, fun hok => ?_, fun _ => ?_⟩
    · cases hrc.symm.trans hok
    · exact ⟨hrc, hdata, (segmentOperand_payload_length hD).symm.trans hlen, hloss⟩
  · obtain ⟨hopc, hrc, hdata⟩ := readResponse_wire (S := if err then 0x70010000 else 0x70000000) (by cases err <;> decide)
      payload.length (s.operand.take 16 ++ payload)
    refine ⟨_, exec_pseg_of_delivered hD hout, hopc.trans (by cases err <;> rfl), fun _ => ?_, fun hne => ?_⟩
    · rw [hdata, List.take_left' (by rw [List.length_take]; omega)]
    · exact absurd (hrc.trans (by cases err <;> rfl)) hne

end Sys2Proof.Proofs

/-! PROOFS. The decoder as the inverse of the encoder on every header (30_encoding.md R61 to R64, R71 to R73), the words of the opcode
table, and what becomes of a stream that the host sends (R63; 70_reset_and_hazards.md R236). -/

namespace Sys2Proof.Machine

/-! ### The fields of a decoded header -/

/-- The fields of a header that decodes are the command's opcode and LEN, with RSV zero between them (R61). -/
theorem fields_of_decodeHeader {h : Word} {i : Instr} (hd : decodeHeader h = .ok i) :
    i.opcode.toNat = h.toNat / 2 ^ 28 ∧ h.toNat / 2 ^ 24 % 16 = 0 ∧ i.len = h.toNat % 2 ^ 24 := by
  obtain ⟨hrsv, hmap⟩ := (decodeHeader_ok_iff h i).1 hd
  obtain ⟨hopc, hlen⟩ := opcodeMap_eq_some _ _ _ hmap
  rw [hopc, hlen, headerOpc_toNat, headerLen_eq, ← headerRsv_toNat, hrsv]
  exact ⟨rfl, rfl, rfl⟩

/-- A header that decodes is the encoding of its command (R61, R73). -/
theorem encodeHeader_of_decodeHeader {h : Word} {i : Instr} (hd : decodeHeader h = .ok i) : encodeHeader i = h := by
  obtain ⟨hopc, hrsv, hlen⟩ := fields_of_decodeHeader hd
  apply BitVec.eq_of_toNat_eq
  rw [encodeHeader_toNat i (decodeHeader_wellFormed h i hd), hopc, hlen]
  omega

/-! ### The words of the opcode table -/

/-- What the decoder reads from a word of the table is what it reads from the word's header; the data bytes do not matter. -/
theorem decodeTableWord_eq (nbits w : Nat) :
    decodeTableWord nbits w = (decodeHeader (BitVec.ofNat 32 (w % 2 ^ nbits))).toOption := by
  simp only [decodeTableWord, tableRequest, decode_header_append]
  cases decodeHeader (BitVec.ofNat 32 (w % 2 ^ nbits)) <;> rfl

/-! ### Streams -/

/-- No request conforms to fewer than four bytes, so the empty stream begins with none. -/
theorem not_conforming_nil : ¬ Conforming [] := fun h => by
  obtain ⟨hlen, -⟩ := (conforming_iff []).1 h
  cases hlen

/-- A stream is its whole requests and a rest that begins with none, when it is cut often enough (R63). -/
theorem splitRequests_spec {n : Nat} {stream : List Byte} (hn : stream.length ≤ n) :
    (∀ request ∈ (splitRequests n stream).1, Conforming request) ∧
    (splitRequests n stream).1.flatten ++ (splitRequests n stream).2 = stream ∧
    ∀ k, ¬ Conforming ((splitRequests n stream).2.take k) := by
  induction n generalizing stream with
  | zero =>
    obtain rfl := List.length_eq_zero_iff.1 (Nat.le_zero.1 hn)
    exact ⟨List.forall_mem_nil _, rfl, fun k => by simpa [splitRequests] using not_conforming_nil⟩
  | succ n ih =>
    obtain ⟨request, rest, htake, hconforms, rfl⟩ | ⟨htake, hnone⟩ := takeRequest_cases stream
    · obtain ⟨hheader, -⟩ := (conforming_iff request).1 hconforms
      obtain ⟨hall, hjoin, hrest⟩ := ih (stream := rest) (by rw [List.length_append] at hn; omega)
      simp only [splitRequests, htake]
      exact ⟨List.forall_mem_cons.2 ⟨hconforms, hall⟩, by rw [List.flatten_cons, List.append_assoc, hjoin], hrest⟩
    · simp only [splitRequests, htake]
      exact ⟨List.forall_mem_nil _, rfl, hnone⟩

/-- What is left of a stream arrives as no request or as one that holds it (log 15). -/
theorem leftover_cases (rest : List Byte) : leftover rest = [] ∨ leftover rest = [rest] ∧ rest ≠ [] := by
  cases rest with
  | nil => exact .inl rfl
  | cons b rest => exact .inr ⟨rfl, List.cons_ne_nil b rest⟩

end Sys2Proof.Machine

namespace Sys2Proof.Proofs

open Sys2Proof.Machine

/-- Settles O3: the header's fields are the command's, and the data follow its four bytes. -/
theorem decodeOfEncodeIsTheCommand : Obligations.DecodeOfEncodeIsTheCommand :=
  fun _ D hi => decode_encode_append hi D

/-- Settles O4: the decoder rejects exactly the illegal headers, and the fields of every other make it up. -/
theorem everyHeaderIsACommandOrIllegal : Obligations.EveryHeaderIsACommandOrIllegal := by
  refine fun h => ⟨fun hill => (decodeHeader_of_illegalHeader hill).symm, fun hlegal => ?_⟩
  obtain ⟨i, hi, hd⟩ := exists_decodeHeader_eq_ok hlegal
  obtain ⟨hopc, -, hlen⟩ := fields_of_decodeHeader hd
  exact ⟨i, hi, hd, encodeHeader_of_decodeHeader hd, hopc, hlen⟩

/-- Settles O50: the cut stream joins up again, and its rest is at most one more request. -/
theorem streamBytesAreNeitherLostNorInvented : Obligations.StreamBytesAreNeitherLostNorInvented := by
  intro s stream
  obtain ⟨hall, hjoin, hrest⟩ := splitRequests_spec (le_refl stream.length)
  refine ⟨_, _, rfl, by rw [List.flatten_append, leftover_flatten, hjoin], hall, ?_⟩
  exact (leftover_cases _).imp_right fun ⟨hone, hne⟩ => ⟨_, hone, hne, hrest⟩

/-- Settles O2: each word by its header alone. -/
theorem tableWordsDecodeToTheirRows : Obligations.TableWordsDecodeToTheirRows := by
  simp only [Obligations.TableWordsDecodeToTheirRows, decodeTableWord_eq]
  decide

end Sys2Proof.Proofs

/-! PROOFS. The fields of every response read back from its bytes (30_encoding.md R66, R67), that every response the machine gives is one
the spec allows (R68, R69), and that with no error flag PSEG delivers its input (70_reset_and_hazards.md R238). -/

namespace Sys2Proof.Machine

/-! ### The fields of a response -/

/-- The bytes of a response hold its fields, RLEN as far as it fits 32 bits (R66, R67). -/
theorem readResponse_bytes (r : Response) : readResponse r.bytes =
    { opc := r.opc.toNat, rc := r.rc.code.toNat, reserved := 0, trunc := r.flags.trunc.toNat, malf := r.flags.malf.toNat,
      err := r.flags.err.toNat, low := 0, rlen := r.rlen % 2 ^ 32, data := r.data } := by
  have hS : beValue (r.bytes.take 4) = r.status.toNat :=
    (beValue_beBytes 4 _).trans (Nat.mod_eq_of_lt r.status.isLt)
  have hrlen : beValue ((r.bytes.drop 4).take 4) = r.rlen % 2 ^ 32 := beValue_beBytes 4 r.rlen
  have hdata : r.bytes.drop 8 = r.data := rfl
  have hopc := r.opc.isLt
  have hrc := r.rc.code.isLt
  have htrunc := r.flags.trunc.toNat_le
  have hmalf := r.flags.malf.toNat_le
  have herr := r.flags.err.toNat_le
  simp only [readResponse, hS, status_toNat, hrlen, hdata, ResponseFields.mk.injEq, and_true]
  omega

/-- Only OK has the outcome code 0 (R68). -/
theorem outcomeCode_toNat_eq_zero_iff (rc : OutcomeCode) : rc.code.toNat = 0 ↔ rc = .ok := by
  cases rc <;> decide

theorem eight_le_bytes_length (r : Response) : 8 ≤ r.bytes.length := by
  simp only [Response.bytes, List.length_append, beBytes_length]
  omega

/-! ### The results of the noise function, the decoder and `ProcessSegment` -/

/-- The noise function keeps the length of a frame it does not lose (42_noise.md R155). -/
theorem noise_frame_length {e r : Bits} {s : State} (h : (noise e s).1 = .frame r) : r.length = e.length := by
  rw [noise_eq] at h
  split_ifs at h
  · cases h
    exact flipBit_length _ _
  · cases h
    rfl

/-- A malformed block is an error too (41_blockcoder.md R130). -/
theorem dec7_malformed_le (v : Bits) : (dec7 v).malformed.toNat ≤ (dec7 v).errorDetected.toNat := by
  by_cases hv : v.length = 7
  · simp [dec7_of_length hv]
  · simp [dec7_of_length_ne hv]

/-- A delivery is the input segment, unflagged, or it is flagged and carries 140 bytes or none (43_channel.md R171, R182). -/
theorem processSegment_delivered {seg out : Segment} {s : State} (h : (processSegment seg s).1 = .delivered out) :
    (seg.payload.length = 140 ∧ out = ⟨seg.payload, seg.metadata, false⟩) ∨
    (out.isChannelError = true ∧ (out.payload.length = 140 ∨ out.payload.length = 0)) := by
  by_cases hlen : seg.payload.length = 140
  · by_cases hloss : s.LosesFrame
    · cases (processSegment_lost hlen hloss).symm.trans h
    · by_cases hflip : s.FlipsBit
      · cases (processSegment_flipped hlen hloss hflip).symm.trans h
        exact .inr ⟨rfl, .inl (by rw [flipPayload_length, hlen])⟩
      · cases (processSegment_kept hlen hloss hflip).symm.trans h
        exact .inl ⟨hlen, rfl⟩
  · cases (processSegment_of_length_ne hlen s).symm.trans h
    exact .inr ⟨rfl, .inr rfl⟩

/-! ### The responses the spec allows -/

/-- A response other than OK that carries no flag, no length and no data is legal for the commands that can give it (R68). -/
theorem legalResponse_of_rc_ne_ok {opc : BitVec 4} {rc : OutcomeCode} (hrc : rc ≠ .ok)
    (hlost : rc = .lost → opc = 6#4 ∨ opc = 7#4) (hbadlen : rc = .badlen → opc = 6#4) :
    LegalResponse (Response.bytes { opc := opc, rc := rc, flags := Flags.clear, rlen := 0, data := [] }) := by
  refine ⟨eight_le_bytes_length _, ?_⟩
  cases rc with
  | ok => exact absurd rfl hrc
  | lost => obtain rfl | rfl := hlost rfl <;> simp [readResponse_bytes, Flags.clear, OutcomeCode.code]
  | badlen => simp [readResponse_bytes, Flags.clear, OutcomeCode.code, hbadlen]
  | illegal => simp [readResponse_bytes, Flags.clear, OutcomeCode.code]

theorem legalResponse_illegal (h : Word) : LegalResponse (illegalResponse h).bytes :=
  legalResponse_of_rc_ne_ok nofun nofun nofun

/-- NOISE answers a frame of 1960 bits legally, lost or not (42_noise.md R156). -/
theorem legalResponse_noiseResponse {n : NoiseOutcome} (hn : ∀ r, n = .frame r → r.length = 1960) :
    LegalResponse (noiseResponse n).bytes := by
  cases n with
  | lost => exact legalResponse_of_rc_ne_ok nofun (fun _ => .inl rfl) nofun
  | frame r =>
    refine ⟨eight_le_bytes_length _, ?_⟩
    simp [readResponse_bytes, noiseResponse, Flags.clear, OutcomeCode.code, hn r rfl]

/-- PSEG answers a loss legally, and a delivery of 140 bytes or a flagged empty one (43_channel.md R179). -/
theorem legalResponse_segmentResponse {c : ChannelOutcome} (hc : ∀ out, c = .delivered out →
    out.payload.length = 140 ∨ out.payload.length = 0 ∧ out.isChannelError = true) :
    LegalResponse (segmentResponse c).bytes := by
  cases c with
  | lost => exact legalResponse_of_rc_ne_ok nofun (fun _ => .inr rfl) nofun
  | delivered out =>
    refine ⟨eight_le_bytes_length _, ?_⟩
    obtain hlen | ⟨hlen, herr⟩ := hc out rfl
    · simp [readResponse_bytes, segmentResponse, Flags.error, Flags.clear, OutcomeCode.code, hlen]
    · simp [readResponse_bytes, segmentResponse, Flags.error, Flags.clear, OutcomeCode.code, hlen, herr]

/-- Every command answers data of its length with a response that the spec allows it (R66 to R69). -/
theorem legalResponse_effectOf {i : Instr} (hi : i.WellFormed) {D : List Byte} (hD : D.length = operandBytes i) (t : State) :
    LegalResponse (effectOf i D t).1.bytes := by
  cases i with
  | ser len =>
    have hlen : len < 2 ^ 24 := hi
    have hbytes : D.length = (8 * len + 7) / 8 := by rw [hD, operandBytes]; omega
    refine ⟨eight_le_bytes_length _, ?_⟩
    simp (disch := omega) [readResponse_bytes, effectOf, Flags.clear, OutcomeCode.code, pack_bytesToBits, hbytes,
      Nat.mod_eq_of_lt]
  | des len =>
    have hlen : len < 2 ^ 24 := hi
    refine ⟨eight_le_bytes_length _, ?_⟩
    simp (disch := omega) [readResponse_bytes, effectOf, Flags.truncation, Flags.clear, OutcomeCode.code, bitOperand_length len D hD,
      Nat.mod_eq_of_lt]
  | enc len =>
    refine ⟨eight_le_bytes_length _, ?_⟩
    by_cases hfour : len = 4 <;>
      simp [readResponse_bytes, effectOf, hfour, Flags.malformed, Flags.clear, OutcomeCode.code]
  | dec len =>
    refine ⟨eight_le_bytes_length _, ?_⟩
    simp [readResponse_bytes, effectOf, Flags.decoded, Flags.clear, OutcomeCode.code, dec7_malformed_le]
  | syn len =>
    refine ⟨eight_le_bytes_length _, ?_⟩
    by_cases hseven : len = 7 <;>
      simp [readResponse_bytes, effectOf, hseven, Flags.error, Flags.malformed, Flags.clear, OutcomeCode.code]
  | noise len =>
    simp only [effectOf]
    split_ifs with hframe
    · exact legalResponse_noiseResponse fun r hr =>
        (noise_frame_length hr).trans ((bitOperand_length len D hD).trans hframe)
    · exact legalResponse_of_rc_ne_ok nofun nofun fun _ => rfl
  | pseg len =>
    refine legalResponse_segmentResponse fun out hout => ?_
    obtain ⟨hlen, rfl⟩ | ⟨herr, hlen⟩ := processSegment_delivered hout
    · exact .inl hlen
    · exact hlen.imp_right fun hempty => ⟨hempty, herr⟩

/-- What a step that completes can do, as `step_next` says it; its one response is one that the spec allows. -/
theorem step_next_legalResponse {s t : State} (h : step s = .next t) :
    (s.requests = [] ∧ t = s) ∨
    ∃ (request : List Byte) (later : List (List Byte)) (b : List Byte) (draws : Nat),
      s.requests = request :: later ∧ t = { s with requests := later }.after b draws ∧ LegalResponse b := by
  obtain ⟨hidle, hs⟩ | ⟨request, later, i, D, hreq, hd, hs⟩ | ⟨request, later, w, hreq, -, hs⟩ | ⟨-, -, -, -, hs⟩ :=
    step_cases s
  · cases hs.symm.trans h
    exact .inl ⟨hidle, rfl⟩
  · obtain ⟨hD, rfl⟩ := exec_next (hs.symm.trans h)
    obtain ⟨-, hheader, -⟩ := (decode_ok_iff request D i).1 hd
    exact .inr ⟨request, later, _, _, hreq, rfl, legalResponse_effectOf (decodeHeader_wellFormed _ i hheader) hD _⟩
  · obtain ⟨-, rfl⟩ := performIllegal_next (hs.symm.trans h)
    exact .inr ⟨request, later, _, _, hreq, rfl, legalResponse_illegal w⟩
  · cases hs.symm.trans h

/-! ### The data of PSEG's response -/

/-- With RC = OK and ERR = 0 PSEG's response carries its operand (70_reset_and_hazards.md R238). -/
theorem segmentResponse_data_eq_operand {D : List Byte} {s : State} {r : Response} (hD : 16 ≤ D.length)
    (hr : segmentResponse (processSegment (segmentOperand D) s).1 = r) (hok : r.rc = .ok) (herr : r.flags.err = false) :
    r.data = D := by
  subst hr
  cases hout : (processSegment (segmentOperand D) s).1 with
  | lost => simp [hout, segmentResponse] at hok
  | delivered out =>
    rw [hout] at herr
    obtain ⟨-, rfl⟩ | ⟨hflag, -⟩ := processSegment_delivered hout
    · calc metadataBlock (segmentOperand D).metadata ++ D.drop 16
          = D.take 16 ++ D.drop 16 := by rw [metadataBlock_segmentOperand hD]
        _ = D := List.take_append_drop 16 D
    · cases hflag.symm.trans herr

end Sys2Proof.Machine

namespace Sys2Proof.Proofs

open Sys2Proof.Machine

/-- Settles O15: the configuration and the empty operand by the step's inversion, the new response by its command's. -/
theorem stepKeepsTheStateLegal : Obligations.StepKeepsTheStateLegal := by
  rintro s t ⟨hF, hTR, hTP, hoperand, hresponses⟩ h
  obtain ⟨-, rfl⟩ | ⟨request, later, b, draws, -, rfl, hb⟩ := step_next_legalResponse h
  · exact ⟨hF, hTR, hTP, hoperand, hresponses⟩
  · exact ⟨hF, hTR, hTP, rfl, List.forall_mem_append.2 ⟨hresponses, List.forall_mem_singleton.2 hb⟩⟩

/-- Settles O11: a step with a request waiting is not idle, and what it appends is legal. -/
theorem everyRequestGetsOneResponse : Obligations.EveryRequestGetsOneResponse := by
  intro s t request later hreq h
  obtain ⟨hidle, -⟩ | ⟨_, _, b, draws, hreq', rfl, hb⟩ := step_next_legalResponse h
  · cases hidle.symm.trans hreq
  · cases hreq'.symm.trans hreq
    exact ⟨rfl, rfl, b, rfl, hb⟩

/-- Settles O48: an unflagged delivery is the input segment, and the metadata block is carried bit for bit. -/
theorem unflaggedPayloadEqualsTheInput : Obligations.UnflaggedPayloadEqualsTheInput := by
  intro len s t b h hb hok herr
  obtain ⟨hD, rfl⟩ := exec_next h
  obtain rfl : _ = b := List.singleton_inj.1 (List.append_cancel_left hb)
  simp only [readResponse_bytes] at hok herr ⊢
  have hlong : 16 ≤ s.operand.length := by rw [hD, operandBytes]; omega
  exact segmentResponse_data_eq_operand hlong (effectOf_pseg_fst len _ _) ((outcomeCode_toNat_eq_zero_iff _).1 hok)
    (Bool.toNat_eq_zero.1 herr)

end Sys2Proof.Proofs

/-! PROOFS. When a step completes and when it is refused (70_reset_and_hazards.md R236, R240), runs over all waiting requests
(20_memory.md R50), and the independence of instances (20_memory.md R56). -/

namespace Sys2Proof.Machine

/-! ### When a step completes -/

/-- `perform` completes on data of the right length and refuses all other. -/
theorem perform_cases (nD : Nat) (s : State) (effect : List Byte → State → Response × State) :
    (s.operand.length = nD ∧ ∃ t, perform nD s effect = .next t) ∨
    (s.operand.length ≠ nD ∧ ∃ r, perform nD s effect = .refused r) := by
  by_cases hD : s.operand.length = nD
  · exact .inl ⟨hD, _, perform_ready nD s effect hD⟩
  · exact .inr ⟨hD, _, perform_refused nD s effect hD⟩

/-- A request that decodes to a command conforms exactly when its data have the command's length. -/
theorem conforming_iff_of_decode_eq_ok {request D : List Byte} {i : Instr} (hd : decode request = .ok (i, D)) :
    Conforming request ↔ D.length = operandBytes i := by
  simp only [Conforming, hd]

/-- A request whose header is rejected conforms exactly when no data follow the header. -/
theorem conforming_iff_of_decode_eq_error {request : List Byte} {h : Word}
    (hd : decode request = .error (.illegalOpcode h) ∨ decode request = .error (.reservedField h)) :
    Conforming request ↔ (request.drop 4).length = 0 := by
  have hheader : 4 ≤ request.length := by
    by_contra hshort
    have hreject : decode request = .error .shortHeader := if_pos (not_le.1 hshort)
    simp [hreject] at hd
  have hconf : Conforming request ↔ request.length = 4 := by obtain hd | hd := hd <;> simp only [Conforming, hd]
  rw [hconf, List.length_drop]
  omega

/-- A step with a request waiting completes when the request conforms and is refused when it does not (R236). -/
theorem step_cases_of_request {s : State} {request : List Byte} {later : List (List Byte)} (hreq : s.requests = request :: later) :
    (Conforming request ∧ ∃ t, step s = .next t) ∨ (¬ Conforming request ∧ ∃ r, step s = .refused r) := by
  obtain ⟨hidle, -⟩ | ⟨_, _, i, D, hreq', hd, hs⟩ | ⟨_, _, h, hreq', hd, hs⟩ | ⟨_, _, hreq', hd, hs⟩ := step_cases s
  · cases hidle.symm.trans hreq
  all_goals cases hreq'.symm.trans hreq
  · rw [conforming_iff_of_decode_eq_ok hd, hs, exec_eq_perform]
    exact perform_cases (operandBytes i) { s with requests := later, operand := D } (effectOf i)
  · rw [conforming_iff_of_decode_eq_error hd, hs]
    exact perform_cases 0 { s with requests := later, operand := request.drop 4 } _
  · exact .inr ⟨by simp [Conforming, hd], _, hs⟩

/-! ### Runs -/

/-- A conforming request is performed in one step: it is taken, one response is returned, the configuration stays (R240). -/
theorem step_of_conforming {s : State} {request : List Byte} {later : List (List Byte)} (hreq : s.requests = request :: later)
    (hconf : Conforming request) : ∃ (b : List Byte) (draws : Nat), step s = .next ({ s with requests := later }.after b draws) := by
  obtain ⟨-, t, h⟩ | ⟨hnot, -⟩ := step_cases_of_request hreq
  · obtain ⟨hidle, -⟩ | ⟨_, _, r, draws, hreq', rfl⟩ := step_next h
    · cases hidle.symm.trans hreq
    · cases hreq'.symm.trans hreq
      exact ⟨r.bytes, draws, h⟩
  · exact absurd hconf hnot

/-- What a run leaves behind that performs all waiting requests of s and ends in t (R50, R240, R241). -/
def PerformedAll (s t : State) : Prop :=
  t.requests = [] ∧ t.responses.length = s.responses.length + s.requests.length ∧ s.responses <+: t.responses ∧
    t.cfgTR = s.cfgTR ∧ t.cfgTP = s.cfgTP ∧ t.fracBits = s.fracBits

theorem performedAll_self {s : State} (hreq : s.requests = []) : PerformedAll s s := by
  simp [PerformedAll, hreq]

/-- One request more in front is one response more. -/
theorem performedAll_of_after {s t : State} {request b : List Byte} {later : List (List Byte)} {draws : Nat}
    (hreq : s.requests = request :: later) (h : PerformedAll ({ s with requests := later }.after b draws) t) : PerformedAll s t := by
  obtain ⟨hnone, hlength, hprefix, hconfig⟩ := h
  refine ⟨hnone, ?_, (List.prefix_append s.responses [b]).trans hprefix, hconfig⟩
  simp only [after_responses, after_requests, List.length_append, List.length_singleton] at hlength
  rw [hlength, hreq, List.length_cons]
  omega

/-- Conforming requests are all performed, in as many steps (R50). -/
theorem run_performs_all {s : State} (hconf : ∀ request ∈ s.requests, Conforming request) :
    ∃ t, Host.Core.run Sys2Proof.core s.requests.length s = .next t ∧ PerformedAll s t := by
  induction hreq : s.requests generalizing s with
  | nil => exact ⟨s, rfl, performedAll_self hreq⟩
  | cons request later ih =>
    obtain ⟨hfirst, hlater⟩ := List.forall_mem_cons.1 (hreq ▸ hconf)
    obtain ⟨b, draws, hs⟩ := step_of_conforming hreq hfirst
    obtain ⟨t, hrun, hall⟩ := ih (s := { s with requests := later }.after b draws) hlater rfl
    exact ⟨t, (core_run_next _ _ _ hs).trans hrun, performedAll_of_after hreq hall⟩

/-! ### Instances -/

/-- Stepping a number that no state of the list has changes nothing (log 12). -/
theorem stepInstance_of_none {sys : List State} {n : Nat} (hn : sys[n]? = none) : stepInstance sys n = .next sys := by
  simp only [stepInstance, hn]

/-- A state of the list that steps is replaced by its next state, in its place. -/
theorem stepInstance_of_step {sys : List State} {n : Nat} {s t : State} (hn : sys[n]? = some s) (hs : step s = .next t) :
    stepInstance sys n = .next (sys.set n t) := by
  simp only [stepInstance, hn, hs]

/-- What stepping number n can do: nothing where no state has it, or put that state's next state in its place. -/
theorem stepInstance_next {sys sys' : List State} {n : Nat} (h : stepInstance sys n = .next sys') :
    (sys[n]? = none ∧ sys' = sys) ∨ ∃ s t, sys[n]? = some s ∧ step s = .next t ∧ sys' = sys.set n t := by
  cases hn : sys[n]? with
  | none =>
    cases (stepInstance_of_none hn).symm.trans h
    exact .inl ⟨rfl, rfl⟩
  | some s =>
    cases hs : step s with
    | next t =>
      cases (stepInstance_of_step hn hs).symm.trans h
      exact .inr ⟨s, t, rfl, hs, rfl⟩
    | fault f => cases f
    | refused r => simp [stepInstance, hn, hs] at h

/-- Stepping number n leaves the states of all other numbers (R56). -/
theorem stepInstance_getElem?_of_ne {sys sys' : List State} {n m : Nat} (h : stepInstance sys n = .next sys') (hne : n ≠ m) :
    sys'[m]? = sys[m]? := by
  obtain ⟨-, rfl⟩ | ⟨s, t, -, -, rfl⟩ := stepInstance_next h
  · rfl
  · exact List.getElem?_set_ne hne

/-- Steps of two instances can be taken in either order (R56). -/
theorem stepInstance_comm {sys a b : List State} {n m : Nat} (hne : n ≠ m) (ha : stepInstance sys n = .next a)
    (hb : stepInstance sys m = .next b) : ∃ c, stepInstance a m = .next c ∧ stepInstance b n = .next c := by
  have ham := stepInstance_getElem?_of_ne ha hne
  have hbn := stepInstance_getElem?_of_ne hb hne.symm
  obtain ⟨hn, rfl⟩ | ⟨s, s', hn, hs, rfl⟩ := stepInstance_next ha
  · exact ⟨b, hb, stepInstance_of_none (hbn.trans hn)⟩
  · obtain ⟨hm, rfl⟩ | ⟨t, t', hm, ht, rfl⟩ := stepInstance_next hb
    · exact ⟨_, stepInstance_of_none (ham.trans hm), ha⟩
    · refine ⟨_, stepInstance_of_step (ham.trans hm) ht, ?_⟩
      rw [List.set_comm _ _ hne]
      exact stepInstance_of_step (hbn.trans hn) hs

end Sys2Proof.Machine

namespace Sys2Proof.Proofs

open Sys2Proof.Machine

/-- Settles O9: the step's two answers exclude each other. -/
theorem stepCompletesExactlyOnConformingRequests : Obligations.StepCompletesExactlyOnConformingRequests := by
  intro s request later hreq
  obtain ⟨hconf, t, hs⟩ | ⟨hconf, r, hs⟩ := step_cases_of_request hreq <;> simp [hconf, hs]

/-- Settles O12, by induction on the waiting requests. -/
theorem runPerformsAllRequests : Obligations.RunPerformsAllRequests := fun _ hconf => run_performs_all hconf

/-- Settles O18: stepping a number writes that place in the list alone. -/
theorem instancesAreIndependent : Obligations.InstancesAreIndependent :=
  ⟨fun _ _ _ _ h hne => stepInstance_getElem?_of_ne h hne.symm, fun _ _ _ _ _ hne ha hb => stepInstance_comm hne ha hb⟩

/-- Settles O7 by the fetch of the decoded command. -/
theorem stepRunsTheDecodedCommand : Obligations.StepRunsTheDecodedCommand :=
  fun _ _ _ _ _ hreq hd => step_of_decode_eq_ok hreq hd

/-- Settles O10: the fetch finds nothing to perform. -/
theorem idleInstanceHoldsItsState : Obligations.IdleInstanceHoldsItsState := by
  intro s hidle
  simp [step, fetch, hidle]

end Sys2Proof.Proofs

/-! PROOFS. Thresholds as floors (10_state.md R23, R24) and the reset state (70_reset_and_hazards.md R230, R231), the range of a draw
(42_noise.md R150, R151), what a command's answer depends on (20_memory.md R49, R51; 10_state.md R27), the blocks of a frame (20_memory.md
R57), and the shift of a codeword (41_blockcoder.md R121). -/

namespace Sys2Proof.Machine

/-! ### Thresholds -/

/-- The threshold as a natural floor. -/
theorem threshold_eq_natFloor (F : Nat) (X : ℝ) : threshold F X = ⌊X * 2 ^ F⌋₊ := Int.floor_toNat _

/-- The threshold of a probability fits F+1 bits (R24). -/
theorem threshold_le (F : Nat) {X : ℝ} (hX : X ≤ 1) : threshold F X ≤ 2 ^ F := by
  rw [threshold_eq_natFloor]
  refine Nat.floor_le_of_le ?_
  push_cast
  exact mul_le_of_le_one_left (by positivity) hX

/-- The threshold form of the comparison loses nothing (R23). -/
theorem div_le_iff_le_threshold (F U : Nat) {X : ℝ} (hX : 0 ≤ X) : (U : ℝ) / 2 ^ F ≤ X ↔ U ≤ threshold F X := by
  rw [threshold_eq_natFloor, Nat.le_floor_iff (by positivity), div_le_iff₀ (by positivity)]

/-- Every value is the threshold of its own fraction. -/
theorem threshold_div (F T : Nat) : threshold F ((T : ℝ) / 2 ^ F) = T := by
  rw [threshold_eq_natFloor, div_mul_cancel₀ _ (by positivity), Nat.floor_natCast]

theorem threshold_one (F : Nat) : threshold F (1 : ℝ) = 2 ^ F := by
  have hone : ((2 ^ F : Nat) : ℝ) / 2 ^ F = 1 := by
    rw [Nat.cast_pow, Nat.cast_ofNat, div_self (by positivity)]
  rw [← hone, threshold_div]

theorem threshold_zero (F : Nat) : threshold F (0 : ℝ) = 0 := by
  rw [threshold_eq_natFloor, zero_mul, Nat.floor_zero]

/-! ### The reset state -/

theorem one_le_drawFracBits : 1 ≤ Config.drawFracBits := Nat.le_add_left ..

/-- Reset is construction with the arguments left open (R230). -/
theorem construct_eq_reset :
    construct Config.drawFracBits Config.lossProbability.val Config.errorProbability.val Config.resetSeed = .next State.reset := by
  obtain ⟨hR0, hR1⟩ := Config.lossProbability.inUnit
  obtain ⟨hP0, hP1⟩ := Config.errorProbability.inUnit
  rw [construct_eq_next_iff, State.reset, scaled_eq_threshold, scaled_eq_threshold]
  exact ⟨⟨one_le_drawFracBits, hR0, hR1, hP0, hP1⟩, rfl⟩

/-- The threshold that reset loads fits F+1 bits (R24). -/
theorem scaled_le (X : Config.Probability) (F : Nat) : X.scaled F ≤ 2 ^ F := by
  obtain ⟨-, hX⟩ := X.inUnit
  rw [scaled_eq_threshold]
  exact threshold_le F hX

/-! ### Draws -/

theorem drawUnit_lt (s : State) : (drawUnit s).1 < 2 ^ s.fracBits := Nat.mod_lt _ (by positivity)

theorem drawIndex_lt {n : Nat} (s : State) (hn : 0 < n) : (drawIndex n s).1 < n := Nat.mod_lt _ hn

/-! ### What an answer depends on -/

/-- Two states have the same configuration, and their sources answer their next three draws alike: all that a command can see beside its
operand (10_state.md R27, 20_memory.md R51). -/
structure SameView (s t : State) : Prop where
  fracBits : s.fracBits = t.fracBits
  cfgTR : s.cfgTR = t.cfgTR
  cfgTP : s.cfgTP = t.cfgTP
  answers : ∀ n < 3, (s.source.skip n).next = (t.source.skip n).next

section
variable {s t : State} (h : SameView s t)
include h

theorem SameView.unitAt_eq {n : Nat} (hn : n < 3) : s.unitAt n = t.unitAt n := by
  rw [State.unitAt, State.unitAt, h.answers n hn, h.fracBits]

theorem SameView.flipAt_eq {n : Nat} (hn : n < 3) : s.flipAt n = t.flipAt n := by
  rw [State.flipAt, State.flipAt, h.answers n hn]

/-- The noise function gives both the same result. -/
theorem SameView.noise_fst_eq (e : Bits) : (noise e s).1 = (noise e t).1 := by
  simp only [noise_eq, apply_ite Prod.fst, h.unitAt_eq (n := 0) (by decide), h.unitAt_eq (n := 1) (by decide),
    h.flipAt_eq (n := 2) (by decide), h.cfgTR, h.cfgTP]

/-- The noise function takes as many draws from both. -/
theorem SameView.noiseDraws_eq : s.noiseDraws = t.noiseDraws := by
  simp only [State.noiseDraws, h.unitAt_eq (n := 0) (by decide), h.unitAt_eq (n := 1) (by decide), h.cfgTR, h.cfgTP]

theorem SameView.drawsOf_eq (i : Instr) : s.drawsOf i = t.drawsOf i := by
  cases i <;> simp only [State.drawsOf, h.noiseDraws_eq]

/-- `ProcessSegment` gives both the same outcome. -/
theorem SameView.processSegment_fst_eq (seg : Segment) : (processSegment seg s).1 = (processSegment seg t).1 := by
  by_cases hlen : seg.payload.length = 140
  · rw [processSegment_of_length_eq hlen, processSegment_of_length_eq hlen, h.noise_fst_eq]
  · rw [processSegment_of_length_ne hlen, processSegment_of_length_ne hlen]

end

/-- The five commands other than NOISE and PSEG answer from their operand alone (20_memory.md R49). -/
theorem effectOf_fst_of_pure {i : Instr} (hpure : ∀ len, i ≠ .noise len ∧ i ≠ .pseg len) (D : List Byte) (s t : State) :
    (effectOf i D s).1 = (effectOf i D t).1 := by
  cases i with
  | ser | des | dec => rfl
  | enc | syn => simp only [effectOf, apply_ite Prod.fst]
  | noise len => exact absurd rfl (hpure len).1
  | pseg len => exact absurd rfl (hpure len).2

/-- They take no draw (42_noise.md R152). -/
theorem drawsOf_of_pure {i : Instr} (hpure : ∀ len, i ≠ .noise len ∧ i ≠ .pseg len) (s : State) : s.drawsOf i = 0 := by
  cases i with
  | ser | des | enc | dec | syn => rfl
  | noise len => exact absurd rfl (hpure len).1
  | pseg len => exact absurd rfl (hpure len).2

/-- A command answers one operand alike in two states that it cannot tell apart. -/
theorem SameView.effectOf_fst_eq {s t : State} (h : SameView s t) (i : Instr) (D : List Byte) :
    (effectOf i D s).1 = (effectOf i D t).1 := by
  cases i with
  | ser | des | enc | dec | syn => exact effectOf_fst_of_pure (by simp) D s t
  | noise len => simp only [effectOf, apply_ite Prod.fst, h.noise_fst_eq]
  | pseg len => simp only [effectOf_pseg_fst, h.processSegment_fst_eq]

end Sys2Proof.Machine

namespace Sys2Proof.Proofs

open Sys2Proof.Machine Sys2Proof.Claims

/-- Settles O17: a natural number is at most a floor exactly when it is at most the number. -/
theorem thresholdTestIsExact : Obligations.ThresholdTestIsExact :=
  ⟨fun F X h0 h1 => ⟨threshold_eq_floor F X h0, threshold_le F h1, fun U _ => div_le_iff_le_threshold F U h0⟩,
    fun F => ⟨threshold_one F, threshold_zero F⟩, fun F T _ => threshold_div F T, fun F X => (threshold_ratCast F X).symm⟩

/-- Settles O13: the open probabilities lie in [0,1] and come with their floors. -/
theorem resetIsAConstruction : Obligations.ResetIsAConstruction :=
  ⟨construct_eq_reset, Config.lossProbability.scaled_eq _, Config.errorProbability.scaled_eq _, rfl, rfl, rfl, rfl⟩

/-- Settles O14: the thresholds of probabilities in [0,1] are in range. -/
theorem resetIsLegal : Obligations.ResetIsLegal :=
  ⟨one_le_drawFracBits, scaled_le _ _, scaled_le _ _, rfl, List.forall_mem_nil _⟩

/-- Settles O32: a value in range is what is left of the answer that is that value. -/
theorem drawsAreAnyValueInRange : Obligations.DrawsAreAnyValueInRange :=
  fun s => ⟨drawUnit_lt s, rfl, fun _ hn => ⟨drawIndex_lt s hn, rfl⟩, rfl,
    fun U hU => ⟨[U], Nat.mod_eq_of_lt hU⟩, fun _ K hK => ⟨[K], Nat.mod_eq_of_lt hK⟩⟩

/-- Settles O36: the five commands answer from the operand alone and take no draw. -/
theorem pureCommandsReadNoState : Obligations.PureCommandsReadNoState := by
  intro i s t hpure hD hlen
  refine ⟨_, exec_of_response (drawsOf_of_pure hpure s) hlen rfl, exec_of_response (drawsOf_of_pure hpure t) (hD ▸ hlen) ?_⟩
  rw [hD, effectOf_fst_of_pure hpure]

/-- Settles O37: the noise step sees the thresholds and the next three draws, every other step the operand alone. -/
theorem commandsSeeOnlyOperandConfigurationAndDraws : Obligations.CommandsSeeOnlyOperandConfigurationAndDraws := by
  intro i s t hD hF hTR hTP hnext hlen
  have hview : SameView s t := ⟨hF, hTR, hTP, hnext⟩
  have hbusy : SameView { s with operand := [] } { t with operand := [] } := ⟨hF, hTR, hTP, hnext⟩
  refine ⟨_, exec_eq_after hlen, ?_⟩
  rw [exec_eq_after (hD ▸ hlen), hD, hbusy.effectOf_fst_eq, hview.drawsOf_eq]

/-- Settles O41: a block of the frame is the codeword of its payload block, and its decoding that of its 7 bits. -/
theorem blocksAreIndependent : Obligations.BlocksAreIndependent := by
  refine fun j hj => ⟨fun b c _ _ hblock => ?_, fun r q _ _ hblock => ?_⟩
  · rw [slice_encodeFrame b hj, slice_encodeFrame c hj, hblock]
  · rw [decodeFrame_getElem? r hj, decodeFrame_getElem? q hj, hblock]

/-- Settles O28: the two codewords by evaluation; the shift has a syndrome, which no codeword has. -/
theorem theCodeIsNotCyclic : Obligations.TheCodeIsNotCyclic := by
  refine ⟨rfl, fun x _ hshift => ?_, rfl⟩
  have hzero := syn7_enc4 (wordBits 4 x)
  rw [hshift] at hzero
  revert hzero
  decide

end Sys2Proof.Proofs
